-- ==== Sys2Proof/Word.lean ====
section
/-! DEFINITION. The two word types of the core: the byte of memory, registers and instructions, and the word of the program counter. -/

namespace Sys2Proof

/-- `WORD` = 8 (00_scope.md R7): a memory cell, a register, an opcode byte, an operand byte. Always unsigned (R10). -/
abbrev Byte := BitVec 8

/-- The program counter's word: 9 bits, of which the values 0..256 occur (10_state.md R26; log 9). -/
abbrev PcWord := BitVec 9

/-- `zext_9` (00_scope.md R11): a byte seen as a program counter value, bit 8 clear. -/
def zext9 (b : Byte) : PcWord := b.setWidth 9

end Sys2Proof
end

