-- ==== Sys2Proof/Config.lean ====
section
/-! DEFINITION. The fixed parameters of the core (00_scope.md R7) and the open parameter HAS_DIV (R9). -/

namespace Sys2Proof

/-- `MEM_SIZE` (00_scope.md R7): addresses 0 to 255. -/
def memSize : Nat := 256

/-- `NREGS` (00_scope.md R7): register indices 0 to 7. -/
abbrev numRegs : Nat := 8

/-- `PC_RESET` (00_scope.md R7). -/
def pcReset : PcWord := 0

/-- `SP_RESET` (00_scope.md R7). -/
def spReset : Byte := 0xF4

/-- `R7_RESET` (00_scope.md R7). -/
def r7Reset : Byte := 0xF4

/-- `LOAD_BASE` (00_scope.md R7): where `load` puts word 0 of the program. -/
def loadBase : Nat := 0

/-- `MAX_OPERANDS` (00_scope.md R7): no instruction has more operand bytes. -/
def maxOperands : Nat := 2

/-- The open parameters that decide what a step does. `HAS_DIV` (00_scope.md R9): whether byte 0xA3 is DIV.
The other open parameter of R9, `MEM_INIT`, is the memory a machine is constructed with (`State.resetWith`). -/
structure Config where
  hasDiv : Bool
  deriving DecidableEq, Repr

/-- What `State.reset` is built with: R9 recommends `HAS_DIV` = false.
DESIGN CHOICE (log 1), unsafe: the parameter is open, and a machine with DIV exists as well. -/
def Config.default : Config := { hasDiv := false }

end Sys2Proof
end

