-- ==== Sys2Proof/Machine/State.lean ====
section
/-! DEFINITION. The state of the core (10_state.md R20), the reasons a step can stop, and the state after reset (R41). -/

namespace Sys2Proof.Machine

/-- The five fault kinds (60_exceptions.md R200). -/
inductive FaultKind where
  | unsupportedOperation
  | invalidOperand
  | divisionByZero
  | stackUnderflow
  | stackOverflow
  deriving DecidableEq, Repr

/-- The run state (10_state.md R34). -/
inductive RunState where
  | running
  | halted
  | faulted (kind : FaultKind)
  deriving DecidableEq, Repr

/-- `FL`, the outcome of the most recent comparison (10_state.md R31), kept as three Booleans (R33, log 16). -/
structure Flags where
  l : Bool
  g : Bool
  e : Bool
  deriving DecidableEq, Repr

/-- Memory: the cells that differ from what an unlisted cell reads as, by rising address. `Memory.wf` says the form. -/
abbrev Memory := List Host.Cell

/-- The general registers `x[0..7]` (10_state.md R21). -/
abbrev Regs := Vector Byte numRegs

/-- The state tuple of 10_state.md R20, and the open parameter that decides what a step does (log 1). -/
structure State where
  /-- `M[0..255]` (20_memory.md R50). -/
  mem : Memory
  /-- `x[0..7]` (10_state.md R21). -/
  x : Regs
  /-- The program counter, values 0..256 (10_state.md R26). -/
  pc : PcWord
  /-- The stack pointer, separate from `x[7]` (10_state.md R22, R29). -/
  sp : Byte
  /-- The flags (10_state.md R31). -/
  fl : Flags
  /-- The run state (10_state.md R34). -/
  run : RunState
  /-- Every byte emitted so far, oldest first (10_state.md R38). -/
  out : List Byte
  /-- `HAS_DIV` (00_scope.md R9): a parameter of the machine, which no step changes. -/
  cfg : Config
  deriving DecidableEq, Repr

/-- Why `step` has no next state. The core's own faults are not here: raising one is a next state (60_exceptions.md R205). -/
inductive Fault where
  /-- `step` in the run state `Halted`, where the core has no step (10_state.md R35). Safe: nothing runs on. -/
  | halted
  /-- `step` in the run state `Faulted(kind)`, where the core has no step (10_state.md R35). Safe: nothing runs on. -/
  | faulted (kind : FaultKind)
  deriving DecidableEq, Repr

/-- What the model refuses. -/
inductive Refusal where
  /-- An arm of `exec` without a meaning. No arm raises it. Safe. -/
  | notModelled (mnemonic : String)
  /-- `Session.load` with more than 256 words: "a longer sequence is refused" (00_scope.md R14). Safe. -/
  | programTooLong
  /-- `Session.load` after the first step (00_scope.md R14: accepted "only between `reset` and the first step"). Safe. -/
  | loadAfterStart
  deriving DecidableEq, Repr

/-- How a step or a meaning ends. -/
abbrev Result := Host.Outcome State Fault Refusal

/-- A core together with the host's side of its interface (00_scope.md R14): whether a step has been taken since `reset`.
It stands beside `State`, whose tuple is the whole state of the core (10_state.md R20; log 6). -/
structure Session where
  core : State
  /-- The core has taken its first step. -/
  begun : Bool
  deriving DecidableEq, Repr

/-- `reset` (70_reset_and_hazards.md R240, 10_state.md R41) of a machine with the parameters `cfg` whose memory holds
`MEM_INIT` = `memInit`. -/
def State.resetWith (cfg : Config) (memInit : Memory) : State where
  mem := memInit
  x := #v[0, 0, 0, 0, 0, 0, 0, r7Reset]
  pc := pcReset
  sp := spReset
  fl := { l := false, g := false, e := false }
  run := .running
  out := []
  cfg := cfg

/-- The `reset` event (00_scope.md R14): the core is constructed in the reset state, and no step has been taken. -/
def Session.reset (cfg : Config) (memInit : Memory) : Session where
  core := State.resetWith cfg memInit
  begun := false

/-- The machine after reset with nothing placed. DESIGN CHOICE, unsafe: `HAS_DIV` is the recommended default (log 1) and
no memory cell is listed (log 2); both are open in the spec, and `State.resetWith` takes every choice. -/
def State.reset : State := State.resetWith Config.default []

end Sys2Proof.Machine
end

