-- ==== Sys2Proof/Machine/Flags.lean ====
section
/-! DEFINITION. The one flag computation of the core (CMP) and the packed form of the flags. -/

namespace Sys2Proof.Machine

/-- The flags of a comparison of unsigned bytes, exactly one of them set (40_alu.md R115). -/
def Flags.compare (u v : Byte) : Flags :=
  if u = v then { l := false, g := false, e := true }
  else if v.toNat < u.toNat then { l := false, g := true, e := false }
  else { l := true, g := false, e := false }

/-- The packed form `0b00000LGE` (10_state.md R33), for displays. -/
def Flags.packed (f : Flags) : Byte :=
  BitVec.ofNat 8 (4 * f.l.toNat + 2 * f.g.toNat + f.e.toNat)

end Sys2Proof.Machine
end

