-- ==== Sys2Proof/Syntax.lean ====
section
/-! DEFINITION. The instruction set as syntax: one constructor per row of spec/opcode_table.json (30_encoding.md R86). -/

namespace Sys2Proof

/-- An instruction with its operand bytes as they stand in memory. A register operand is the whole byte: an index above 7
is encodable, and the instruction's own rule faults on it (30_encoding.md R84). -/
inductive Instr where
  | add (a b : Byte)
  | sub (a b : Byte)
  | mul (a b : Byte)
  | div (a b : Byte)
  | cmp (a b : Byte)
  | and (a b : Byte)
  | not (a : Byte)
  | or (a b : Byte)
  | xor (a b : Byte)
  | shl (a b : Byte)
  | shr (a b : Byte)
  | hlt
  | ldi (a imm : Byte)
  | push (a : Byte)
  | pop (a : Byte)
  | prn (a : Byte)
  | call (a : Byte)
  | ret
  | jmp (a : Byte)
  | jeq (a : Byte)
  | jne (a : Byte)
  deriving DecidableEq, Repr

/-- The four formats of 30_encoding.md R83. -/
inductive Format where
  | f0
  | f1
  | f2r
  | f2i
  deriving DecidableEq, Repr

/-- The column "used by" of 30_encoding.md R83. -/
def Instr.format : Instr → Format
  | .add _ _ => .f2r
  | .sub _ _ => .f2r
  | .mul _ _ => .f2r
  | .div _ _ => .f2r
  | .cmp _ _ => .f2r
  | .and _ _ => .f2r
  | .not _ => .f1
  | .or _ _ => .f2r
  | .xor _ _ => .f2r
  | .shl _ _ => .f2r
  | .shr _ _ => .f2r
  | .hlt => .f0
  | .ldi _ _ => .f2i
  | .push _ => .f1
  | .pop _ => .f1
  | .prn _ => .f1
  | .call _ => .f1
  | .ret => .f0
  | .jmp _ => .f1
  | .jeq _ => .f1
  | .jne _ => .f1

/-- The column "length" of 30_encoding.md R83. -/
def Format.length : Format → Nat
  | .f0 => 1
  | .f1 => 2
  | .f2r => 3
  | .f2i => 3

end Sys2Proof
end

