-- ==== Sys2Proof/WellFormed.lean ====
section
/-! DEFINITION. Well-formed instructions: every register operand names one of the eight registers. -/

namespace Sys2Proof

/-- `valid_reg(b)`: b <= 7 (00_scope.md R11, 10_state.md R23). -/
def validReg (b : Byte) : Bool := b.toNat ≤ 7

/-- The operand bytes an instruction uses as register indices, first operand first (30_encoding.md R83).
LDI's second operand is an immediate and every value of it is legal (R85). -/
def Instr.regOperands : Instr → List Byte
  | .add a b => [a, b]
  | .sub a b => [a, b]
  | .mul a b => [a, b]
  | .div a b => [a, b]
  | .cmp a b => [a, b]
  | .and a b => [a, b]
  | .not a => [a]
  | .or a b => [a, b]
  | .xor a b => [a, b]
  | .shl a b => [a, b]
  | .shr a b => [a, b]
  | .hlt => []
  | .ldi a _ => [a]
  | .push a => [a]
  | .pop a => [a]
  | .prn a => [a]
  | .call a => [a]
  | .ret => []
  | .jmp a => [a]
  | .jeq a => [a]
  | .jne a => [a]

/-- An instruction that the notation of 30_encoding.md R96 can write: its registers are R0 to R7. -/
def Instr.wf (i : Instr) : Bool := i.regOperands.all validReg

end Sys2Proof
end

