-- ==== Sys2Proof/Decode.lean ====
section
/-! DEFINITION. The instruction decoder, total on any list of bytes, and the encoder (30_encoding.md). -/

namespace Sys2Proof

/-- The four fields of an opcode byte (30_encoding.md R81). -/
structure OpcodeFields where
  operandCount : BitVec 2
  isAlu : Bool
  setsPc : Bool
  opcodeId : BitVec 4
  deriving DecidableEq, Repr

/-- The decoder of 30_encoding.md R82, "pure function of the byte": bits 7-6, bit 5, bit 4, bits 3-0 (R81). -/
def opcodeFields (ir : Byte) : OpcodeFields where
  operandCount := ir.extractLsb' 6 2
  isAlu := ir.getLsbD 5
  setsPc := ir.getLsbD 4
  opcodeId := ir.extractLsb' 0 4

/-- `n`, the number of operand bytes the opcode byte announces (30_encoding.md R80). -/
def operandCount (ir : Byte) : Nat := (opcodeFields ir).operandCount.toNat

/-- The dispatch on the whole opcode byte (43_execution_loop.md R187, 30_encoding.md R88).
A row that has fewer than two operands ignores `opa` or `opb`. DIV's row counts only when `HAS_DIV` (R89). -/
def select (hasDiv : Bool) (ir opa opb : Byte) : Option Instr :=
  match ir with
  | 0xA0#8 => some (.add opa opb)
  | 0xA1#8 => some (.sub opa opb)
  | 0xA2#8 => some (.mul opa opb)
  | 0xA3#8 => if hasDiv then some (.div opa opb) else none
  | 0xA7#8 => some (.cmp opa opb)
  | 0xA8#8 => some (.and opa opb)
  | 0x69#8 => some (.not opa)
  | 0xAA#8 => some (.or opa opb)
  | 0xAB#8 => some (.xor opa opb)
  | 0xAC#8 => some (.shl opa opb)
  | 0xAD#8 => some (.shr opa opb)
  | 0x01#8 => some .hlt
  | 0x82#8 => some (.ldi opa opb)
  | 0x45#8 => some (.push opa)
  | 0x46#8 => some (.pop opa)
  | 0x47#8 => some (.prn opa)
  | 0x50#8 => some (.call opa)
  | 0x11#8 => some .ret
  | 0x54#8 => some (.jmp opa)
  | 0x55#8 => some (.jeq opa)
  | 0x56#8 => some (.jne opa)
  | _ => none

/-- Why a list of bytes is no instruction. -/
inductive DecodeError where
  /-- There is no opcode byte. -/
  | noByte
  /-- Bits 7-6 of the opcode byte are 11 (30_encoding.md R91). -/
  | operandCount3
  /-- An operand byte the opcode byte announces is missing. -/
  | truncated
  /-- The opcode byte is in no row of the opcode map (30_encoding.md R92). -/
  | unknownOpcode
  deriving DecidableEq, Repr

/-- The instruction at the head of a list of bytes, and the bytes after it. The checks come in the order of
60_exceptions.md R206 lines 1 to 4. An operand byte that the opcode byte does not announce is not looked at: the
default 0 below reaches only rows that ignore it (30_encoding.md R90). -/
def decode (hasDiv : Bool) : List Byte → Except DecodeError (Instr × List Byte)
  | [] => .error .noByte
  | ir :: rest =>
    if operandCount ir = 3 then .error .operandCount3
    else if rest.length < operandCount ir then .error .truncated
    else
      match select hasDiv ir (rest.getD 0 0) (rest.getD 1 0) with
      | some i => .ok (i, rest.drop (operandCount ir))
      | none => .error .unknownOpcode

/-- The column "opcode byte" of 30_encoding.md R86. The low nibbles are the spec's general knowledge (log 7). -/
def Instr.opcode : Instr → Byte
  | .add _ _ => 0xA0
  | .sub _ _ => 0xA1
  | .mul _ _ => 0xA2
  | .div _ _ => 0xA3
  | .cmp _ _ => 0xA7
  | .and _ _ => 0xA8
  | .not _ => 0x69
  | .or _ _ => 0xAA
  | .xor _ _ => 0xAB
  | .shl _ _ => 0xAC
  | .shr _ _ => 0xAD
  | .hlt => 0x01
  | .ldi _ _ => 0x82
  | .push _ => 0x45
  | .pop _ => 0x46
  | .prn _ => 0x47
  | .call _ => 0x50
  | .ret => 0x11
  | .jmp _ => 0x54
  | .jeq _ => 0x55
  | .jne _ => 0x56

/-- The operand bytes that follow the opcode byte, in the order of 30_encoding.md R83. -/
def Instr.operands : Instr → List Byte
  | .add a b => [a, b]
  | .sub a b => [a, b]
  | .mul a b => [a, b]
  | .div a b => [a, b]
  | .cmp a b => [a, b]
  | .and a b => [a, b]
  | .not a => [a]
  | .or a b => [a, b]
  | .xor a b => [a, b]
  | .shl a b => [a, b]
  | .shr a b => [a, b]
  | .hlt => []
  | .ldi a imm => [a, imm]
  | .push a => [a]
  | .pop a => [a]
  | .prn a => [a]
  | .call a => [a]
  | .ret => []
  | .jmp a => [a]
  | .jeq a => [a]
  | .jne a => [a]

/-- The bytes of an instruction at increasing addresses (30_encoding.md R83, 20_memory.md R56). -/
def encode (i : Instr) : List Byte := i.opcode :: i.operands

/-- The three bytes of an instruction word whose bits are numbered as spec/opcode_table.json numbers them: bit 0 is the
least significant bit of the first byte. Bits from `nbits` up are 0. -/
def wordBytes (nbits w : Nat) : List Byte :=
  [BitVec.ofNat 8 (w % 2 ^ nbits), BitVec.ofNat 8 (w % 2 ^ nbits / 256), BitVec.ofNat 8 (w % 2 ^ nbits / 65536)]

/-- The instruction the decoder reads from an instruction word of the opcode table, `none` where it refuses.
DESIGN CHOICE (log 17): all 21 rows of the table count, so `HAS_DIV` is taken as true here. -/
def decodeTableWord (nbits w : Nat) : Option Instr :=
  match decode true (wordBytes nbits w) with
  | .ok (i, _) => some i
  | .error _ => none

end Sys2Proof
end

