-- ==== Sys2Proof/Machine/Ops.lean ====
section
/-! DEFINITION. The named operations over memory, registers and control state; fetching an instruction's bytes; taking a fault. -/

namespace Sys2Proof.Machine

/-! ## Memory -/

/-- What a cell that is not listed reads as. The spec leaves it open (`MEM_INIT`, 20_memory.md R55).
DESIGN CHOICE (log 2), unsafe where a claim is about `State.reset`'s memory; any other content is a listed one. -/
def Memory.unlisted : Byte := 0

/-- The canonical form: addresses strictly rising and inside 0..255, no entry that reads like an unlisted cell. -/
abbrev Memory.wf (m : Memory) : Prop :=
  List.Pairwise (fun p q : Host.Cell => p.1 < q.1) m ∧ ∀ c ∈ m, c.1 < memSize ∧ c.2 ≠ Memory.unlisted

/-- `MemRead(a, 1)` (00_scope.md R11). The caller has checked that a <= 255. -/
def Memory.read : Memory → Nat → Byte
  | [], _ => Memory.unlisted
  | c :: m, a => if c.1 = a then c.2 else Memory.read m a

/-- The memory without an entry for the address `a`. -/
def Memory.without (m : Memory) (a : Nat) : Memory := m.filter fun c => c.1 ≠ a

/-- An entry put at its place by rising address. -/
def Memory.place : Memory → Nat → Byte → Memory
  | [], a, v => [(a, v)]
  | c :: m, a, v => if a < c.1 then (a, v) :: c :: m else c :: Memory.place m a v

/-- `MemWrite(a, 1, v)` (00_scope.md R11), keeping the canonical form. The caller has checked that a <= 255. -/
def Memory.write (m : Memory) (a : Nat) (v : Byte) : Memory :=
  if v = Memory.unlisted then Memory.without m a else Memory.place (Memory.without m a) a v

/-- Bytes stored at `a`, `a + 1`, and so on, as `load` does it (00_scope.md R14). -/
def Memory.writeList : Memory → Nat → List Byte → Memory
  | m, _, [] => m
  | m, a, v :: vs => Memory.writeList (m.write a v) (a + 1) vs

/-! ## Registers, memory and control state of the machine -/

/-- `x[i]` (00_scope.md R11). No register is hardwired (10_state.md R22). -/
def State.reg (s : State) (i : Fin 8) : Byte := s.x[i]

/-- `x[i] <- v`. -/
def State.setReg (s : State) (i : Fin 8) (v : Byte) : State := { s with x := s.x.set i v }

/-- `M[a]`. -/
def State.readMem (s : State) (a : Nat) : Byte := s.mem.read a

/-- `M[a] <- v`. -/
def State.writeMem (s : State) (a : Nat) (v : Byte) : State := { s with mem := s.mem.write a v }

/-- `pc <- v`. -/
def State.setPc (s : State) (v : PcWord) : State := { s with pc := v }

/-- The loop's advance past an instruction with `n` operand bytes: `pc <- pc + n + 1` (43_execution_loop.md R184). -/
def State.advance (s : State) (n : Nat) : State := s.setPc (s.pc + BitVec.ofNat 9 (n + 1))

/-- `sp <- v`. -/
def State.setSp (s : State) (v : Byte) : State := { s with sp := v }

/-- `FL <- f`: all three flags at once. -/
def State.setFlags (s : State) (f : Flags) : State := { s with fl := f }

/-- `Out(v)`: v becomes the newest byte of the output sequence (10_state.md R38). -/
def State.emit (s : State) (v : Byte) : State := { s with out := s.out ++ [v] }

/-- `run <- r`. -/
def State.setRun (s : State) (r : RunState) : State := { s with run := r }

/-! ## Taking a fault -/

/-- `raise Fault(kind)` (60_exceptions.md R205): `run <- Faulted(kind)` and no other change. It is the core's whole trap
entry (R207: nothing is saved, no mode, no vector) and there is no return from it (R210). -/
def takeFault (kind : FaultKind) (s : State) : Result := .next (s.setRun (.faulted kind))

/-! ## The stack -/

/-- A push of `v` and then `k` (41_stack.md R140): faults with `StackUnderflow` at `sp` = 0 and changes nothing; else
stores at `sp - 1` and decrements `sp`. -/
def pushThen (v : Byte) (s : State) (k : State → Result) : Result :=
  if s.sp = 0 then takeFault .stackUnderflow s
  else k ((s.writeMem (s.sp.toNat - 1) v).setSp (s.sp - 1))

/-- A pop and then `k` of the popped byte (41_stack.md R140): faults with `StackOverflow` at `sp` = 255 and changes
nothing; else reads at `sp` and increments `sp`. -/
def popThen (s : State) (k : Byte → State → Result) : Result :=
  if s.sp = 255 then takeFault .stackOverflow s
  else k (s.readMem s.sp.toNat) (s.setSp (s.sp + 1))

/-! ## Fetch -/

/-- The bytes at `pc`, `pc + 1`, `pc + 2` that exist, that is whose address is at most 255 (43_execution_loop.md R181, R182).
DEDUCED (log 15): taking the operand bytes that the instruction does not need as well cannot be observed, since a read
has no effect (20_memory.md R58). -/
def State.fetchBytes (s : State) : List Byte :=
  (List.range' s.pc.toNat (min 3 (memSize - s.pc.toNat))).map s.readMem

/-- The fault of a fetch, operand fetch or dispatch that yields no instruction (43_execution_loop.md R181 to R183). -/
def decodeFault : DecodeError → FaultKind
  | .noByte => .invalidOperand
  | .operandCount3 => .unsupportedOperation
  | .truncated => .invalidOperand
  | .unknownOpcode => .unsupportedOperation

end Sys2Proof.Machine
end

