-- ==== Sys2Proof/Machine/Operands.lean ====
section
/-! DEFINITION. The operand forms: register operands with their check, one and two of them; the immediate is used as it stands. -/

namespace Sys2Proof.Machine

/-- A register operand and then `k` of the register (10_state.md R23, 30_encoding.md R84): the whole byte is the index, and
a byte above 7 raises `InvalidOperand`. -/
def withReg (b : Byte) (s : State) (k : Fin 8 → Result) : Result :=
  if h : b.toNat < 8 then k ⟨b.toNat, h⟩ else takeFault .invalidOperand s

/-- Two register operands, the first checked first (10_state.md R23, 40_alu.md R110). -/
def withRegs (a b : Byte) (s : State) (k : Fin 8 → Fin 8 → Result) : Result :=
  withReg a s fun i => withReg b s fun j => k i j

end Sys2Proof.Machine
end

