-- ==== Sys2Proof/Machine/Alu.lean ====
section
/-! DEFINITION. The meanings of the ALU instructions (40_alu.md): ADD, SUB, MUL, DIV, CMP, AND, NOT, OR, XOR, SHL, SHR. -/

namespace Sys2Proof.Machine

/-- The shape of a two-register ALU instruction that writes its first register (40_alu.md R110): both checks, both reads,
`x[a] <- f x[a] x[b]`, `pc <- pc + 3`. No flag is written (R123). -/
def aluBinary (f : Byte → Byte → Byte) (a b : Byte) (s : State) : Result :=
  withRegs a b s fun i j => .next ((s.setReg i (f (s.reg i) (s.reg j))).advance 2)

/-- ADD (40_alu.md R111): the sum modulo 256. -/
def execAdd (a b : Byte) (s : State) : Result := aluBinary (fun u v => u + v) a b s

/-- SUB (40_alu.md R112): the difference modulo 256. -/
def execSub (a b : Byte) (s : State) : Result := aluBinary (fun u v => u - v) a b s

/-- MUL (40_alu.md R113): the low eight bits of the product. -/
def execMul (a b : Byte) (s : State) : Result := aluBinary (fun u v => u * v) a b s

/-- DIV (40_alu.md R114): `DivisionByZero` on a zero divisor, else the unsigned quotient. That the machine has DIV at all
is the dispatch's business (43_execution_loop.md R187; log 4). -/
def execDiv (a b : Byte) (s : State) : Result :=
  withRegs a b s fun i j =>
    if s.reg j = 0 then takeFault .divisionByZero s
    else .next ((s.setReg i (s.reg i / s.reg j)).advance 2)

/-- CMP (40_alu.md R115): the three flags, nothing else. -/
def execCmp (a b : Byte) (s : State) : Result :=
  withRegs a b s fun i j => .next ((s.setFlags (Flags.compare (s.reg i) (s.reg j))).advance 2)

/-- AND (40_alu.md R116). -/
def execAnd (a b : Byte) (s : State) : Result := aluBinary (fun u v => u &&& v) a b s

/-- NOT (40_alu.md R119): `255 - x[a]`. -/
def execNot (a : Byte) (s : State) : Result :=
  withReg a s fun i => .next ((s.setReg i (~~~ s.reg i)).advance 1)

/-- OR (40_alu.md R117). -/
def execOr (a b : Byte) (s : State) : Result := aluBinary (fun u v => u ||| v) a b s

/-- XOR (40_alu.md R118). -/
def execXor (a b : Byte) (s : State) : Result := aluBinary (fun u v => u ^^^ v) a b s

/-- SHL (40_alu.md R120): logical, the whole byte is the amount. -/
def execShl (a b : Byte) (s : State) : Result := aluBinary (fun u v => u <<< v.toNat) a b s

/-- SHR (40_alu.md R121): logical, the whole byte is the amount. -/
def execShr (a b : Byte) (s : State) : Result := aluBinary (fun u v => u >>> v.toNat) a b s

end Sys2Proof.Machine
end

