-- ==== Sys2Proof/Machine/Control.lean ====
section
/-! DEFINITION. The meanings of the control-unit instructions (42_control.md): HLT, LDI, PRN, JMP, JEQ, JNE. -/

namespace Sys2Proof.Machine

/-- HLT (42_control.md R161): `run <- Halted`, and `pc` past the HLT (log 13). -/
def execHlt (s : State) : Result := .next ((s.setRun .halted).advance 0)

/-- LDI (42_control.md R162): the second operand byte as it stands (30_encoding.md R85). -/
def execLdi (a imm : Byte) (s : State) : Result :=
  withReg a s fun i => .next ((s.setReg i imm).advance 2)

/-- PRN (42_control.md R163). -/
def execPrn (a : Byte) (s : State) : Result :=
  withReg a s fun i => .next ((s.emit (s.reg i)).advance 1)

/-- A register-indirect jump taken when `taken`; not taken it skips its operand (42_control.md R165).
The register is checked either way. -/
def jumpIf (taken : Bool) (a : Byte) (s : State) : Result :=
  withReg a s fun i => .next (if taken then s.setPc (zext9 (s.reg i)) else s.advance 1)

/-- JMP (42_control.md R164). -/
def execJmp (a : Byte) (s : State) : Result := jumpIf true a s

/-- JEQ (42_control.md R165): taken when `E` = 1. -/
def execJeq (a : Byte) (s : State) : Result := jumpIf s.fl.e a s

/-- JNE (42_control.md R166): taken when `E` = 0. -/
def execJne (a : Byte) (s : State) : Result := jumpIf (!s.fl.e) a s

end Sys2Proof.Machine
end

