-- ==== Sys2Proof/Machine/Stack.lean ====
section
/-! DEFINITION. The meanings of the stack instructions (41_stack.md): PUSH, POP, CALL, RET. -/

namespace Sys2Proof.Machine

/-- PUSH (41_stack.md R141). -/
def execPush (a : Byte) (s : State) : Result :=
  withReg a s fun i => pushThen (s.reg i) s fun t => .next (t.advance 1)

/-- POP (41_stack.md R142). -/
def execPop (a : Byte) (s : State) : Result :=
  withReg a s fun i => popThen s fun v t => .next ((t.setReg i v).advance 1)

/-- CALL (41_stack.md R143): the register check, then the return address `pc + 2` must be a byte, then the push. -/
def execCall (a : Byte) (s : State) : Result :=
  withReg a s fun i =>
    if 255 < s.pc.toNat + 2 then takeFault .invalidOperand s
    else pushThen (BitVec.ofNat 8 (s.pc.toNat + 2)) s fun t => .next (t.setPc (zext9 (s.reg i)))

/-- RET (41_stack.md R144). -/
def execRet (s : State) : Result := popThen s fun v t => .next (t.setPc (zext9 v))

end Sys2Proof.Machine
end

