-- ==== Sys2Proof/Machine/HostInterface.lean ====
section
/-! DEFINITION. The abstract interfaces between the core and the host: load, boot, the exit status, the rendered output; and placing an instruction where the next fetch finds it. -/

namespace Sys2Proof.Machine

/-- The effect of an accepted `load`: `M[i] <- words[i]` from address 0 (00_scope.md R14). -/
def State.placeProgram (words : List Byte) (s : State) : State := { s with mem := s.mem.writeList loadBase words }

/-- `load(words)` (00_scope.md R14): accepted only before the first step and only when there are at most 256 words. -/
def Session.load (words : List Byte) (h : Session) : Host.Outcome Session Fault Refusal :=
  if h.begun then .refused .loadAfterStart
  else if memSize < words.length then .refused .programTooLong
  else .next { h with core := h.core.placeProgram words }

/-- What must be done before the first step: `reset`, then `load` (70_reset_and_hazards.md R243). -/
def Session.boot (cfg : Config) (memInit : Memory) (words : List Byte) : Host.Outcome Session Fault Refusal :=
  (Session.reset cfg memInit).load words

/-- The fault codes (60_exceptions.md R201). -/
def FaultKind.code : FaultKind → Nat
  | .unsupportedOperation => 1
  | .invalidOperand => 2
  | .divisionByZero => 3
  | .stackUnderflow => 4
  | .stackOverflow => 5

/-- The exit status of a finished run, none while it is running (60_exceptions.md R220). -/
def RunState.exitStatus : RunState → Option Nat
  | .running => none
  | .halted => some 0
  | .faulted k => some k.code

/-- The decimal digits of a byte, most significant first, without leading zeros (00_scope.md R15). -/
def decimalDigits (v : Byte) : List Nat :=
  if v.toNat < 10 then [v.toNat]
  else if v.toNat < 100 then [v.toNat / 10, v.toNat % 10]
  else [v.toNat / 100, v.toNat / 10 % 10, v.toNat % 10]

/-- The line the output sink shows for one emitted byte: its decimal digits, then a line end (00_scope.md R15). R15 does not
say which characters end a line. DESIGN CHOICE (log 14), unsafe where a claim is about the text: the one character `'\n'`. -/
def outLine (v : Byte) : List Char := (decimalDigits v).map Nat.digitChar ++ ['\n']

/-- Everything the sink has shown so far. -/
def State.outText (s : State) : List Char := s.out.flatMap outLine

/-- The first byte of the only row that a machine without DIV lacks (30_encoding.md R89). -/
def divOpcode : Byte := 0xA3

/-- The state with `bytes` (three of them) where the next step fetches, running. It stands for a `load` (log 5).
`pc` stays where the bytes fit below 256 and is 0 otherwise; `HAS_DIV` is set when the first byte is DIV's, since the byte
is no instruction of a machine without it. -/
def State.placeAtFetch (s : State) (bytes : List Byte) : State :=
  let at_ : PcWord := if s.pc.toNat + 3 ≤ memSize then s.pc else 0
  { s with
    mem := s.mem.writeList at_.toNat bytes
    pc := at_
    run := .running
    cfg := if bytes.head? = some divOpcode then { hasDiv := true } else s.cfg }

end Sys2Proof.Machine
end

