-- ==== Sys2Proof/Machine/Step.lean ====
section
/-! DEFINITION. One step of the core (43_execution_loop.md R187) and the host's way to place the next instruction. -/

namespace Sys2Proof.Machine

/-- One step (43_execution_loop.md R187). It exists only when `run` = `Running` (R180); in a terminal state the outcome is a
fault by name, not a next state (10_state.md R35, log 3). A fetch, operand fetch or dispatch that yields no instruction
raises its fault (R181 to R183); otherwise the instruction's own rule is the step. -/
def step (s : State) : Host.Outcome State Fault Refusal :=
  match s.run with
  | .halted => .fault .halted
  | .faulted k => .fault (.faulted k)
  | .running =>
    match decode s.cfg.hasDiv s.fetchBytes with
    | .error e => takeFault (decodeFault e) s
    | .ok (i, _) => exec i s

/-- `s` with the instruction word stored where `step` fetches next (log 5). -/
def State.withFetchWord (s : State) (nbits w : Nat) : State := s.placeAtFetch (wordBytes nbits w)

end Sys2Proof.Machine
end

