-- ==== Sys2Proof/Machine/Run.lean ====
section
/-! DEFINITION. A run as the host drives it: one step of a session, and repeated steps, bounded by the host (43_execution_loop.md R188). -/

namespace Sys2Proof.Machine

/-- The host steps the core: after it the run has begun, and no `load` is accepted any more (00_scope.md R14). -/
def Session.step (h : Session) : Host.Outcome Session Fault Refusal :=
  match Machine.step h.core with
  | .next t => .next { core := t, begun := true }
  | .fault e => .fault e
  | .refused e => .refused e

/-- At most `n` steps; a terminal state stays as it is (43_execution_loop.md R188, 10_state.md R35). The host may stop at
any number of steps, which leaves the state after the last completed instruction (00_scope.md R16). -/
def runFor : Nat → State → State
  | 0, s => s
  | n + 1, s =>
    match step s with
    | .next t => runFor n t
    | .fault _ => s
    | .refused _ => s

end Sys2Proof.Machine
end

