-- ==== Sys2Proof/Safety.lean ====
section
/-! DEFINITION. The words the claims are written in: the parts of the state and what leaves them unchanged, the invariant of the machine, safe runs, and the spec's own tables of opcode bytes, register use and jump targets. -/

namespace Sys2Proof.Machine

/-- One part of the state that the spec names (10_state.md R20), each register, cell and flag by itself; `hasDiv` is the
parameter of 00_scope.md R9. -/
inductive Piece where
  | reg (i : Fin 8)
  | cell (a : Nat)
  | pc
  | sp
  | flagL
  | flagG
  | flagE
  | run
  | out
  | hasDiv
  deriving DecidableEq, Repr

/-- What a part holds. -/
inductive Content where
  | byte (v : Byte)
  | address (v : PcWord)
  | bit (v : Bool)
  | runState (v : RunState)
  | bytes (v : List Byte)
  deriving DecidableEq, Repr

/-- The content of one part; a memory cell is looked at through the machine's own read. -/
def State.piece (s : State) : Piece → Content
  | .reg i => .byte (s.reg i)
  | .cell a => .byte (s.readMem a)
  | .pc => .address s.pc
  | .sp => .byte s.sp
  | .flagL => .bit s.fl.l
  | .flagG => .bit s.fl.g
  | .flagE => .bit s.fl.e
  | .run => .runState s.run
  | .out => .bytes s.out
  | .hasDiv => .bit s.cfg.hasDiv

/-- The frame: every part of the state but those listed, every cell of memory included, is in `t` what it is in `s`. -/
def Unchanged (s t : State) (changed : List Piece) : Prop :=
  ∀ p : Piece, p ∉ changed → t.piece p = s.piece p

/-- A value the flags can have in a run: none set, or exactly one (10_state.md R31, R37). -/
def Flags.legal (f : Flags) : Prop :=
  f = ⟨false, false, false⟩ ∨ f = ⟨true, false, false⟩ ∨ f = ⟨false, true, false⟩ ∨ f = ⟨false, false, true⟩

/-- Exactly one flag is set, as after any CMP (10_state.md R31). -/
def Flags.oneHot (f : Flags) : Prop :=
  f = ⟨true, false, false⟩ ∨ f = ⟨false, true, false⟩ ∨ f = ⟨false, false, true⟩

/-- The invariant of the machine: memory in its canonical form inside 0..255, `pc` in 0..256 (10_state.md R26, R28), the
flags legal (R31). That `sp` is in 0..255 and there are eight byte registers is in the types. -/
structure State.Inv (s : State) : Prop where
  memory : s.mem.wf
  counter : s.pc.toNat ≤ 256
  flags : s.fl.legal

/-- A safe run: however many steps the host takes from `s`, the core does not enter `Faulted` (60_exceptions.md R209). -/
def SafeFrom (s : State) : Prop := ∀ (n : Nat) (k : FaultKind), (runFor n s).run ≠ .faulted k

/-- The instruction the next step of `s` dispatches to, if fetch, operand fetch and dispatch yield one. -/
def State.current (s : State) : Option Instr :=
  match decode s.cfg.hasDiv s.fetchBytes with
  | .ok (i, _) => some i
  | .error _ => none

end Sys2Proof.Machine

namespace Sys2Proof

/-- The opcode bytes of the opcode map (30_encoding.md R86, R94); DIV's counts only when `HAS_DIV` (R89). -/
def opcodeRows (hasDiv : Bool) : List Byte :=
  [0x01, 0x11, 0x45, 0x46, 0x47, 0x50, 0x54, 0x55, 0x56, 0x69, 0x82, 0xA0, 0xA1, 0xA2, 0xA7, 0xA8, 0xAA, 0xAB, 0xAC, 0xAD]
    ++ if hasDiv then [0xA3] else []

/-- The column "reads" of 10_state.md R24, as operand bytes. -/
def Instr.readsRegs : Instr → List Byte
  | .add a b => [a, b]
  | .sub a b => [a, b]
  | .mul a b => [a, b]
  | .div a b => [a, b]
  | .cmp a b => [a, b]
  | .and a b => [a, b]
  | .not a => [a]
  | .or a b => [a, b]
  | .xor a b => [a, b]
  | .shl a b => [a, b]
  | .shr a b => [a, b]
  | .hlt => []
  | .ldi _ _ => []
  | .push a => [a]
  | .pop _ => []
  | .prn a => [a]
  | .call a => [a]
  | .ret => []
  | .jmp a => [a]
  | .jeq a => [a]
  | .jne a => [a]

/-- The column "writes" of 10_state.md R24, as operand bytes. -/
def Instr.writesRegs : Instr → List Byte
  | .add a _ => [a]
  | .sub a _ => [a]
  | .mul a _ => [a]
  | .div a _ => [a]
  | .cmp _ _ => []
  | .and a _ => [a]
  | .not a => [a]
  | .or a _ => [a]
  | .xor a _ => [a]
  | .shl a _ => [a]
  | .shr a _ => [a]
  | .hlt => []
  | .ldi a _ => [a]
  | .push _ => []
  | .pop a => [a]
  | .prn _ => []
  | .call _ => []
  | .ret => []
  | .jmp _ => []
  | .jeq _ => []
  | .jne _ => []

/-- The instructions defined in 40_alu.md (30_encoding.md R90). -/
def Instr.isAlu : Instr → Bool
  | .add _ _ => true
  | .sub _ _ => true
  | .mul _ _ => true
  | .div _ _ => true
  | .cmp _ _ => true
  | .and _ _ => true
  | .not _ => true
  | .or _ _ => true
  | .xor _ _ => true
  | .shl _ _ => true
  | .shr _ _ => true
  | .hlt => false
  | .ldi _ _ => false
  | .push _ => false
  | .pop _ => false
  | .prn _ => false
  | .call _ => false
  | .ret => false
  | .jmp _ => false
  | .jeq _ => false
  | .jne _ => false

/-- The five instructions that write `pc` themselves (10_state.md R27). -/
def Instr.setsPc : Instr → Bool
  | .add _ _ => false
  | .sub _ _ => false
  | .mul _ _ => false
  | .div _ _ => false
  | .cmp _ _ => false
  | .and _ _ => false
  | .not _ => false
  | .or _ _ => false
  | .xor _ _ => false
  | .shl _ _ => false
  | .shr _ _ => false
  | .hlt => false
  | .ldi _ _ => false
  | .push _ => false
  | .pop _ => false
  | .prn _ => false
  | .call _ => true
  | .ret => true
  | .jmp _ => true
  | .jeq _ => true
  | .jne _ => true

/-- The four instructions that touch `sp` (10_state.md R30). -/
def Instr.usesStack : Instr → Bool
  | .add _ _ => false
  | .sub _ _ => false
  | .mul _ _ => false
  | .div _ _ => false
  | .cmp _ _ => false
  | .and _ _ => false
  | .not _ => false
  | .or _ _ => false
  | .xor _ _ => false
  | .shl _ _ => false
  | .shr _ _ => false
  | .hlt => false
  | .ldi _ _ => false
  | .push _ => true
  | .pop _ => true
  | .prn _ => false
  | .call _ => true
  | .ret => true
  | .jmp _ => false
  | .jeq _ => false
  | .jne _ => false

/-- The two instructions that read a flag (10_state.md R32). -/
def Instr.readsFlag : Instr → Bool
  | .add _ _ => false
  | .sub _ _ => false
  | .mul _ _ => false
  | .div _ _ => false
  | .cmp _ _ => false
  | .and _ _ => false
  | .not _ => false
  | .or _ _ => false
  | .xor _ _ => false
  | .shl _ _ => false
  | .shr _ _ => false
  | .hlt => false
  | .ldi _ _ => false
  | .push _ => false
  | .pop _ => false
  | .prn _ => false
  | .call _ => false
  | .ret => false
  | .jmp _ => false
  | .jeq _ => true
  | .jne _ => true

end Sys2Proof
end

