-- ==== Sys2Proof/Certificates/Slice0/Obligations.lean ====
section
/-! DEFINITION. The statements for the provers. Each says what an instruction or the machine does by the numbered rules of
spec/. Where a clause rests on a decision the spec marks as its own (92_eei_decisions.md D<n>) or on a log entry, the
docstring names it. The low nibbles of the opcode bytes written below are general knowledge in the spec (D2, log 7). -/

open Sys2Proof Sys2Proof.Machine

/-! ## Reset and the host -/

/-- 70_reset_and_hazards.md R240: what reset leaves, for every parameter and every `MEM_INIT`. -/
def Obligations.ResetPutsEveryPieceAtItsValue : Prop :=
  ∀ (cfg : Config) (memInit : Memory),
    (State.resetWith cfg memInit).run = .running ∧ (State.resetWith cfg memInit).pc = 0 ∧
    (State.resetWith cfg memInit).sp = 0xF4 ∧
    (∀ i : Fin 8, i.val ≤ 6 → (State.resetWith cfg memInit).reg i = 0) ∧
    (State.resetWith cfg memInit).reg 7 = 0xF4 ∧
    (State.resetWith cfg memInit).fl = ⟨false, false, false⟩ ∧ (State.resetWith cfg memInit).out = [] ∧
    ∀ a, (State.resetWith cfg memInit).readMem a = memInit.read a

/-- 00_scope.md section 6, `reset` and `load` (decision D19: only between `reset` and the first step, at most 256 words). That
the host's side of the interface records whether a step was taken is the model's form of it (log 6). -/
def Obligations.LoadPlacesTheProgramOrIsRefused : Prop :=
  (∀ (cfg : Config) (memInit : Memory) (words : List Byte), words.length ≤ 256 →
    ∃ h, Session.boot cfg memInit words = .next h ∧
      (∀ (i : Nat) (hi : i < words.length), h.core.readMem i = words[i]) ∧
      (∀ a, words.length ≤ a → h.core.readMem a = memInit.read a) ∧
      { h with core := { h.core with mem := memInit } } = Session.reset cfg memInit) ∧
  (∀ (cfg : Config) (memInit : Memory) (words : List Byte), 256 < words.length →
    Session.boot cfg memInit words = .refused .programTooLong) ∧
  (∀ (h : Session) (words : List Byte), (∃ g, h.load words = .next g) ↔ h.begun = false ∧ words.length ≤ 256) ∧
  (∀ (h g : Session) (words : List Byte), h.load words = .next g → g.begun = false ∧ g.core.run = h.core.run) ∧
  (∀ h : Session, h.core.run = .running → ∃ g, h.step = .next g ∧ step h.core = .next g.core) ∧
  ∀ (h g : Session) (words : List Byte), h.step = .next g → g.load words = .refused .loadAfterStart

/-- The instruction word the host places is the one the next step runs (the model's own interface, log 5). -/
def Obligations.PlacedWordIsTheNextStep : Prop :=
  ∀ (s : State) (nbits w : Nat) (i : Instr) (rest : List Byte), decode true (wordBytes nbits w) = .ok (i, rest) →
    step (s.withFetchWord nbits w) = exec i (s.withFetchWord nbits w)

/-- 43_execution_loop.md R180: a step exists exactly when the core is running, and it is one instruction or a fault. -/
def Obligations.StepExistsExactlyWhileRunning : Prop :=
  (∀ s : State, (∃ t, step s = .next t) ↔ s.run = .running) ∧
  ∀ s : State, s.run = .running →
    (∃ i, s.current = some i ∧ step s = exec i s) ∨ ∃ k, step s = .next { s with run := .faulted k }

/-- 10_state.md section 6 (decision D23): a terminal state never changes. -/
def Obligations.TerminalStatesAreFrozen : Prop :=
  ∀ (s : State) (n : Nat), s.run ≠ .running → runFor n s = s ∧ ∀ t, step s ≠ .next t

/-- 00_scope.md sections 4 and 6: the parameter `HAS_DIV` is fixed for the machine (the model carries it in State, log 1). -/
def Obligations.ParameterNeverChanges : Prop := ∀ s t : State, step s = .next t → t.cfg = s.cfg

/-- 60_exceptions.md sections 1 and 7 (the numbers are decision D17): 0 for a clean halt, a code of its own from 1 to 5 for
each fault kind, none while running. -/
def Obligations.ExitStatusTellsHaltFromEachFault : Prop :=
  RunState.exitStatus .running = none ∧ RunState.exitStatus .halted = some 0 ∧
  RunState.exitStatus (.faulted .unsupportedOperation) = some 1 ∧
  RunState.exitStatus (.faulted .invalidOperand) = some 2 ∧
  RunState.exitStatus (.faulted .divisionByZero) = some 3 ∧
  RunState.exitStatus (.faulted .stackUnderflow) = some 4 ∧
  RunState.exitStatus (.faulted .stackOverflow) = some 5

/-- 00_scope.md section 6, `out` (the text form is decision D20): a byte is shown as its decimal digits without leading
zeros, then a line end. That the line end is the one character `'\n'` is the model's choice (log 14). -/
def Obligations.OutputLineIsThePlainDecimal : Prop :=
  ∀ v : Byte, ∃ digits : List Nat, outLine v = digits.map Nat.digitChar ++ ['\n'] ∧ (∀ d ∈ digits, d ≤ 9) ∧
    digits.foldl (fun n d => 10 * n + d) 0 = v.toNat ∧ digits ≠ [] ∧ (digits.head? = some 0 → digits = [0])

/-- 10_state.md section 5 (the packing is decision D9): `0b00000LGE`. -/
def Obligations.PackedFlagsHaveTheirBits : Prop :=
  ∀ f : Flags, f.packed.getLsbD 2 = f.l ∧ f.packed.getLsbD 1 = f.g ∧ f.packed.getLsbD 0 = f.e ∧ f.packed.toNat < 8

/-! ## Decoding and encoding -/

/-- 30_encoding.md R81, R82: the four fields are a function of the byte alone, and they are its bits; and they mean what R81
says: of every instruction's opcode byte, the count is the number of operand bytes, `is_alu` tells the ALU's instructions
from the control unit's, and `sets_pc` those that set `pc` themselves. -/
def Obligations.OpcodeFieldsAreTheBitsOfTheByte : Prop :=
  (∀ ir : Byte, (opcodeFields ir).operandCount.toNat = ir.toNat / 64 ∧
    ((opcodeFields ir).isAlu = true ↔ ir.toNat / 32 % 2 = 1) ∧
    ((opcodeFields ir).setsPc = true ↔ ir.toNat / 16 % 2 = 1) ∧
    (opcodeFields ir).opcodeId.toNat = ir.toNat % 16) ∧
  ∀ i : Instr, (opcodeFields i.opcode).operandCount.toNat = i.operands.length ∧
    (opcodeFields i.opcode).isAlu = i.isAlu ∧ (opcodeFields i.opcode).setsPc = i.setsPc

/-- A few words written out from 30_encoding.md sections 1 and 3 (low nibbles: decision D2, log 7), one of each family,
and words that are no instruction. -/
def Obligations.SampleWordsDecode : Prop :=
  decode false [0b10100000, 0, 1] = .ok (.add 0 1, []) ∧ decode false [0b01101001, 7] = .ok (.not 7, []) ∧
  decode false [0b01000101, 3] = .ok (.push 3, []) ∧ decode false [0b00010001] = .ok (.ret, []) ∧
  decode false [0b10000010, 2, 0xAB] = .ok (.ldi 2 0xAB, []) ∧ decode false [0b01010101, 6] = .ok (.jeq 6, []) ∧
  decode true [0b10100011, 5, 4] = .ok (.div 5 4, []) ∧ decode false [0b10100011, 5, 4] = .error .unknownOpcode ∧
  decode true [0b11100101] = .error .operandCount3 ∧ decode true [0b10100000, 0] = .error .truncated

/-- Decoding an encoded instruction gives it back, whatever its operand bytes, with the bytes after it left over
(30_encoding.md sections 1 to 3); DIV's row counts only when `HAS_DIV` (decision D5). -/
def Obligations.DecodeOfEncodeIsTheInstruction : Prop :=
  (∀ (i : Instr) (rest : List Byte), decode true (encode i ++ rest) = .ok (i, rest)) ∧
  (∀ (i : Instr) (rest : List Byte), (∀ a b, i ≠ .div a b) → decode false (encode i ++ rest) = .ok (i, rest)) ∧
  ∀ (a b : Byte) (rest : List Byte), decode false (encode (.div a b) ++ rest) = .error .unknownOpcode

/-- Every instruction has one encoding: bytes that decode are the encoding of what they decode to and what is left over
(30_encoding.md section 3, decision D3). -/
def Obligations.DecodedBytesAreTheEncoding : Prop :=
  ∀ (h : Bool) (bytes : List Byte) (i : Instr) (rest : List Byte), decode h bytes = .ok (i, rest) →
    bytes = encode i ++ rest ∧ (h = false → ∀ a b, i ≠ .div a b)

/-- 30_encoding.md section 4 (the opcode map's low nibbles are decision D2, log 7): every other byte faults, after its
operand bytes are bounds-checked; every byte of the map is the instruction whose opcode byte it is; 20 bytes are
instructions, 21 with DIV. -/
def Obligations.UnknownOpcodeBytesFault : Prop :=
  (∀ s : State, s.run = .running → s.pc.toNat ≤ 255 → s.readMem s.pc.toNat ∉ opcodeRows s.cfg.hasDiv →
    ((s.readMem s.pc.toNat).toNat / 64 = 3 ∨ s.pc.toNat + (s.readMem s.pc.toNat).toNat / 64 ≤ 255 →
      step s = .next { s with run := .faulted .unsupportedOperation }) ∧
    ((s.readMem s.pc.toNat).toNat / 64 ≠ 3 → 255 < s.pc.toNat + (s.readMem s.pc.toNat).toNat / 64 →
      step s = .next { s with run := .faulted .invalidOperand })) ∧
  (∀ (h : Bool) (ir opa opb : Byte), ir ∈ opcodeRows h →
    ∃ i rest, decode h [ir, opa, opb] = .ok (i, rest) ∧ i.opcode = ir) ∧
  ((List.range 256).filter fun n => decide (BitVec.ofNat 8 n ∈ opcodeRows false)).length = 20 ∧
  ((List.range 256).filter fun n => decide (BitVec.ofNat 8 n ∈ opcodeRows true)).length = 21

/-! ## The step -/

/-- 43_execution_loop.md section 3: the step, as the spec's pseudocode assembles it (decisions D10, D14, D15 give the order
of its checks, D2 the bytes). -/
def Obligations.StepIsTheExecutionLoop : Prop :=
  ∀ s : State, s.run = .running →
    step s =
      if 255 < s.pc.toNat then .next { s with run := .faulted .invalidOperand }
      else if (s.readMem s.pc.toNat).toNat / 64 = 3 then .next { s with run := .faulted .unsupportedOperation }
      else if 255 < s.pc.toNat + (s.readMem s.pc.toNat).toNat / 64 then
        .next { s with run := .faulted .invalidOperand }
      else
        match (s.readMem s.pc.toNat).toNat, s.readMem (s.pc.toNat + 1), s.readMem (s.pc.toNat + 2) with
        | 0xA0, opa, opb => exec (.add opa opb) s
        | 0xA1, opa, opb => exec (.sub opa opb) s
        | 0xA2, opa, opb => exec (.mul opa opb) s
        | 0xA7, opa, opb => exec (.cmp opa opb) s
        | 0xA8, opa, opb => exec (.and opa opb) s
        | 0xAA, opa, opb => exec (.or opa opb) s
        | 0xAB, opa, opb => exec (.xor opa opb) s
        | 0x69, opa, _ => exec (.not opa) s
        | 0xAC, opa, opb => exec (.shl opa opb) s
        | 0xAD, opa, opb => exec (.shr opa opb) s
        | 0xA3, opa, opb =>
          if s.cfg.hasDiv then exec (.div opa opb) s else .next { s with run := .faulted .unsupportedOperation }
        | 0x01, _, _ => exec .hlt s
        | 0x82, opa, opb => exec (.ldi opa opb) s
        | 0x47, opa, _ => exec (.prn opa) s
        | 0x45, opa, _ => exec (.push opa) s
        | 0x46, opa, _ => exec (.pop opa) s
        | 0x50, opa, _ => exec (.call opa) s
        | 0x11, _, _ => exec .ret s
        | 0x54, opa, _ => exec (.jmp opa) s
        | 0x55, opa, _ => exec (.jeq opa) s
        | 0x56, opa, _ => exec (.jne opa) s
        | _, _, _ => .next { s with run := .faulted .unsupportedOperation }

/-- A step runs the decoded instruction (43_execution_loop.md section 2): where the bytes from `pc` on are an instruction's
encoding, inside memory, and the machine has the instruction, the step of a running core is that instruction's rule. -/
def Obligations.StepRunsTheDecodedInstruction : Prop :=
  (∀ (s : State) (i : Instr), s.run = .running → (∀ a b, i = .div a b → s.cfg.hasDiv = true) →
    s.pc.toNat + (encode i).length ≤ 256 →
    (∀ (k : Nat) (h : k < (encode i).length), s.readMem (s.pc.toNat + k) = (encode i)[k]) →
    step s = exec i s) ∧
  ∀ (s : State) (i : Instr) (rest : List Byte), s.run = .running → decode s.cfg.hasDiv s.fetchBytes = .ok (i, rest) →
    step s = exec i s

/-- 43_execution_loop.md R184: after a step that does not fault, `pc` is past the instruction, without wrapping, or, for
the five instructions with `sets_pc` = 1, where the instruction's rule put it; a fault does not move it. -/
def Obligations.PcAdvancesOrGoesToTheTarget : Prop :=
  ∀ (s t : State) (i : Instr), step s = .next t → s.current = some i →
    exec i s = .next t ∧
    ((∃ k, t.run = .faulted k) → t.pc = s.pc) ∧
    ((∀ k, t.run ≠ .faulted k) →
      ((opcodeFields (s.readMem s.pc.toNat)).setsPc = false →
        t.pc.toNat = s.pc.toNat + (s.readMem s.pc.toNat).toNat / 64 + 1) ∧
      ((opcodeFields (s.readMem s.pc.toNat)).setsPc = true ↔
        (∃ a, i = .call a) ∨ i = .ret ∨ (∃ a, i = .jmp a) ∨ (∃ a, i = .jeq a) ∨ ∃ a, i = .jne a) ∧
      (∀ (a : Byte) (r : Fin 8), a.toNat = r.val →
        (i = .jmp a ∨ i = .call a ∨ (i = .jeq a ∧ s.fl.e = true) ∨ (i = .jne a ∧ s.fl.e = false) →
          t.pc.toNat = (s.reg r).toNat) ∧
        ((i = .jeq a ∧ s.fl.e = false) ∨ (i = .jne a ∧ s.fl.e = true) → t.pc.toNat = s.pc.toNat + 2)) ∧
      (i = .ret → t.pc.toNat = (s.readMem s.sp.toNat).toNat))

/-- 42_control.md section 3: only CALL, RET, JMP, JEQ and JNE can leave `pc` elsewhere than at the next instruction, and
then it is an address 0..255. -/
def Obligations.ControlTransfersOnlyByTheFiveJumps : Prop :=
  ∀ (s t : State) (i : Instr), step s = .next t → s.current = some i → (∀ k, t.run ≠ .faulted k) →
    t.pc.toNat ≠ s.pc.toNat + (encode i).length → i.setsPc = true ∧ t.pc.toNat ≤ 255

/-! ## Faults -/

/-- 60_exceptions.md section 2 (decision D13): a fault changes `run` and nothing else, in every instruction and in the
fetch. -/
def Obligations.FaultsChangeOnlyTheRunState : Prop :=
  (∀ (s t : State) (k : FaultKind), step s = .next t → t.run = .faulted k → t = { s with run := .faulted k }) ∧
  ∀ (i : Instr) (s t : State) (k : FaultKind), s.run = .running → exec i s = .next t → t.run = .faulted k →
    t = { s with run := .faulted k }

/-- 60_exceptions.md R202: `UnsupportedOperation` is raised by an operand count of 3, and by a byte outside the opcode map
once its operand bytes are fetched, and by nothing else; at any `pc` 0..255; by 236 byte values, 235 with DIV.
Which bytes the map holds: decision D2, log 7. -/
def Obligations.UnsupportedOperationIsRaisedInExactlyTwoCases : Prop :=
  (∀ s t : State, step s = .next t →
    (t.run = .faulted .unsupportedOperation ↔
      s.pc.toNat ≤ 255 ∧
      ((s.readMem s.pc.toNat).toNat / 64 = 3 ∨
        s.pc.toNat + (s.readMem s.pc.toNat).toNat / 64 ≤ 255 ∧ s.readMem s.pc.toNat ∉ opcodeRows s.cfg.hasDiv))) ∧
  (∀ (p : PcWord) (b : Byte) (h : Bool), p.toNat ≤ 255 → b ∉ opcodeRows h →
    (b.toNat / 64 = 3 ∨ p.toNat + b.toNat / 64 ≤ 255) →
    ∃ s t : State, s.pc = p ∧ s.readMem p.toNat = b ∧ s.cfg.hasDiv = h ∧ step s = .next t ∧
      t.run = .faulted .unsupportedOperation) ∧
  ((List.range 256).filter fun n => decide (BitVec.ofNat 8 n ∉ opcodeRows false)).length = 236 ∧
  ((List.range 256).filter fun n => decide (BitVec.ofNat 8 n ∉ opcodeRows true)).length = 235

/-- 60_exceptions.md section 1, InvalidOperand (case (a) is decision D10, case (d) decision D12): raised by a fetch past the
end, an operand byte past the end, a register index above 7, and a CALL at 254, and by nothing else. -/
def Obligations.InvalidOperandIsRaisedInExactlyFourCases : Prop :=
  ∀ s t : State, step s = .next t →
    (t.run = .faulted .invalidOperand ↔
      255 < s.pc.toNat ∨
      (s.pc.toNat ≤ 255 ∧ (s.readMem s.pc.toNat).toNat / 64 ≠ 3 ∧
        255 < s.pc.toNat + (s.readMem s.pc.toNat).toNat / 64) ∨
      (∃ i, s.current = some i ∧ ∃ b ∈ i.regOperands, 7 < b.toNat) ∨
      ∃ a, s.current = some (.call a) ∧ s.pc.toNat = 254)

/-- 60_exceptions.md section 1, the operation faults (decisions D11, D30): exactly when each is raised, after the operand
checks (the order of the checks is decision D14, log 12). -/
def Obligations.OperationFaultsAreRaisedExactlyWhenDue : Prop :=
  ∀ s t : State, step s = .next t →
    (t.run = .faulted .divisionByZero ↔
      ∃ (a b : Byte) (i j : Fin 8), s.current = some (.div a b) ∧ a.toNat = i.val ∧ b.toNat = j.val ∧ s.reg j = 0) ∧
    (t.run = .faulted .stackUnderflow ↔
      s.sp = 0 ∧ ∃ a : Byte, a.toNat ≤ 7 ∧
        (s.current = some (.push a) ∨ s.current = some (.call a) ∧ s.pc.toNat ≠ 254)) ∧
    (t.run = .faulted .stackOverflow ↔
      s.sp = 255 ∧ (s.current = some .ret ∨ ∃ a : Byte, a.toNat ≤ 7 ∧ s.current = some (.pop a))) ∧
    (s.cfg.hasDiv = false → t.run ≠ .faulted .divisionByZero)

/-- 30_encoding.md R84: a register operand byte above 7 raises `InvalidOperand`, in every instruction that has one, before
anything else of the instruction; its high bits are not ignored. -/
def Obligations.RegisterIndexAboveSevenFaults : Prop :=
  ∀ (i : Instr) (s : State), (∃ b ∈ i.regOperands, 7 < b.toNat) →
    exec i s = .next { s with run := .faulted .invalidOperand }

/-- 10_state.md R34: the state after reset is `Running`, `Halted` is entered by HLT and by nothing else, and
`Faulted(kind)` only by raising that fault. -/
def Obligations.HaltedIsEnteredOnlyByHlt : Prop :=
  (∀ (cfg : Config) (memInit : Memory), (State.resetWith cfg memInit).run = .running) ∧
  ∀ s t : State, step s = .next t →
    (t.run = .halted ↔ s.current = some .hlt) ∧
    (t.run = .running ∨ t.run = .halted ∨ ∃ k, .next t = takeFault k s)

/-! ## What no instruction does -/

/-- 10_state.md R32 and 40_alu.md R123: only CMP writes the flags, only JEQ and JNE read one, and of the three they read
only `E`: with other flags everything but the flags comes out the same. -/
def Obligations.FlagsAreWrittenByCmpAndReadByJumpsAlone : Prop :=
  (∀ (i : Instr) (s t : State), exec i s = .next t → t.fl ≠ s.fl → ∃ a b, i = .cmp a b) ∧
  (∀ s t : State, step s = .next t → t.fl ≠ s.fl → ∃ a b, s.current = some (.cmp a b)) ∧
  ∀ (i : Instr) (s t : State) (f : Flags), i.readsFlag = false ∨ f.e = s.fl.e → exec i s = .next t →
    ∃ u, exec i { s with fl := f } = .next u ∧ Unchanged t u [.flagL, .flagG, .flagE]

/-- 10_state.md R31: the flags are clear after reset, exactly one is set after any CMP, and they persist until the next
comparison, so that (0,0,0) does not come back. -/
def Obligations.FlagsAreClearThenOneHot : Prop :=
  (∀ (cfg : Config) (memInit : Memory), (State.resetWith cfg memInit).fl = ⟨false, false, false⟩) ∧
  (∀ (a b : Byte) (s t : State), a.toNat ≤ 7 → b.toNat ≤ 7 → exec (.cmp a b) s = .next t → t.fl.oneHot) ∧
  (∀ s t : State, step s = .next t → (∀ a b, s.current ≠ some (.cmp a b)) → t.fl = s.fl) ∧
  ∀ s t : State, step s = .next t → s.fl.oneHot → t.fl.oneHot

/-- 10_state.md section 4: only PUSH, POP, CALL and RET read or write `sp`, and they move it by one. -/
def Obligations.StackPointerMovesOnlyByTheStackInstructions : Prop :=
  (∀ (i : Instr) (s t : State), exec i s = .next t → t.sp ≠ s.sp →
    i.usesStack = true ∧ (t.sp.toNat + 1 = s.sp.toNat ∨ t.sp.toNat = s.sp.toNat + 1)) ∧
  ∀ (i : Instr) (s t : State) (v : Byte), i.usesStack = false → exec i s = .next t →
    ∃ u, exec i { s with sp := v } = .next u ∧ u.sp = v ∧ Unchanged t u [.sp]

/-- 20_memory.md section 1: memory is stored to only by PUSH and CALL, at `sp - 1`. -/
def Obligations.MemoryIsStoredToOnlyByPushAndCall : Prop :=
  ∀ (s t : State) (c : Nat), step s = .next t → t.readMem c ≠ s.readMem c →
    s.sp ≠ 0 ∧ c = s.sp.toNat - 1 ∧ ∃ a, s.current = some (.push a) ∨ s.current = some (.call a)

/-- 10_state.md R38: `out` is empty at reset, only PRN appends to it, one byte, and the core never reads it: with another
`out` the step is the same and appends the same. -/
def Obligations.OutputGrowsOnlyByPrnAndIsNeverRead : Prop :=
  (∀ (cfg : Config) (memInit : Memory), (State.resetWith cfg memInit).out = []) ∧
  (∀ s t : State, step s = .next t → t.out ≠ s.out →
    ∃ (a : Byte) (i : Fin 8), s.current = some (.prn a) ∧ a.toNat = i.val ∧ t.out = s.out ++ [s.reg i]) ∧
  ∀ (s t : State) (o : List Byte), step s = .next t →
    ∃ u new, step { s with out := o } = .next u ∧ t.out = s.out ++ new ∧ u.out = o ++ new ∧ Unchanged t u [.out]

/-- 10_state.md section 2, the table of register use: an instruction writes no register its row does not list as written,
and what it does to the rest of the machine does not depend on a register its row does not list as read. -/
def Obligations.RegistersAreTouchedOnlyAsNamed : Prop :=
  (∀ (i : Instr) (s t : State) (r : Fin 8), exec i s = .next t → t.reg r ≠ s.reg r →
    ∃ b ∈ i.writesRegs, b.toNat = r.val) ∧
  ∀ (i : Instr) (s t : State) (r : Fin 8) (v : Byte), (∀ b ∈ i.readsRegs, b.toNat ≠ r.val) → exec i s = .next t →
    ∃ u, exec i (s.setReg r v) = .next u ∧ Unchanged t u [.reg r] ∧
      ((∀ b ∈ i.writesRegs, b.toNat ≠ r.val) → u.reg r = v)

/-! ## Invariants and memory -/

/-- Every step keeps the invariant: memory in canonical form inside 0..255 (the form of memory is the model's choice, log 2),
`pc` in 0..256 (10_state.md section 3, decision D10), the flags at one of their four legal values (section 5). -/
def Obligations.EveryStepKeepsTheInvariant : Prop := ∀ s t : State, s.Inv → step s = .next t → t.Inv

/-- The invariant holds after reset, for every parameter and every canonical `MEM_INIT`, `State.reset` among them. The canonical
form of memory, and that `State.reset` lists no cell, are the model's choice (log 2); `pc` in 0..256 is decision D10. -/
def Obligations.ResetMeetsTheInvariant : Prop :=
  (∀ (cfg : Config) (memInit : Memory), memInit.wf → (State.resetWith cfg memInit).Inv) ∧ State.reset.Inv

/-- The invariant holds in every run of every loaded program, at every number of steps the host may take. Its clause on the
canonical form of memory is the model's choice (log 2); its clause `pc` in 0..256 is decision D10. -/
def Obligations.BootedRunsMeetTheInvariant : Prop :=
  ∀ (cfg : Config) (memInit : Memory) (words : List Byte) (h : Session) (n : Nat), memInit.wf →
    Session.boot cfg memInit words = .next h → (runFor n h.core).Inv

/-- The canonical form is one: two canonical memories that read alike are equal; and every content of the 256 cells, that
is every `MEM_INIT` (00_scope.md section 4), is some canonical memory. The form is the model's choice (log 2). -/
def Obligations.CanonicalMemoriesAreTheContents : Prop :=
  (∀ m n : Memory, m.wf → n.wf → (∀ a, m.read a = n.read a) → m = n) ∧
  ∀ content : Nat → Byte, ∃ m : Memory, m.wf ∧ ∀ a, a < 256 → m.read a = content a

/-- 20_memory.md section 4: a store is seen by the next fetch: a byte that PUSH or CALL stores at the address of the next
instruction is the byte that is fetched. -/
def Obligations.StoredByteIsFetchedNext : Prop :=
  ∀ (i : Instr) (s t : State) (a : Byte) (r : Fin 8), a.toNat = r.val → s.sp ≠ 0 → t.pc.toNat = s.sp.toNat - 1 →
    (i = .push a → exec i s = .next t → t.fetchBytes.head? = some (s.reg r)) ∧
    (i = .call a → s.pc.toNat ≤ 253 → exec i s = .next t →
      t.fetchBytes.head? = some (BitVec.ofNat 8 (s.pc.toNat + 2)))

/-! ## The instructions of 40_alu.md -/

/-- 40_alu.md R111 (the low nibble of the opcode byte: decision D2, log 7). -/
def Obligations.AddWritesTheSumModulo256 : Prop :=
  ∀ (a b : Byte) (s : State),
    (∀ (h : Bool) (rest : List Byte), decode h (0xA0 :: a :: b :: rest) = .ok (.add a b, rest)) ∧
    (7 < a.toNat ∨ 7 < b.toNat → exec (.add a b) s = .next { s with run := .faulted .invalidOperand }) ∧
    ∀ i j : Fin 8, a.toNat = i.val → b.toNat = j.val →
      ∃ t, exec (.add a b) s = .next t ∧ (t.reg i).toNat = ((s.reg i).toNat + (s.reg j).toNat) % 256 ∧
        t.pc = s.pc + 3 ∧ Unchanged s t [.reg i, .pc]

/-- 40_alu.md section 2, SUB (decisions D4, D6; log 8). -/
def Obligations.SubWritesTheDifferenceModulo256 : Prop :=
  ∀ (a b : Byte) (s : State),
    (∀ (h : Bool) (rest : List Byte), decode h (0xA1 :: a :: b :: rest) = .ok (.sub a b, rest)) ∧
    (7 < a.toNat ∨ 7 < b.toNat → exec (.sub a b) s = .next { s with run := .faulted .invalidOperand }) ∧
    ∀ i j : Fin 8, a.toNat = i.val → b.toNat = j.val →
      ∃ t, exec (.sub a b) s = .next t ∧ (t.reg i).toNat = ((s.reg i).toNat + 256 - (s.reg j).toNat) % 256 ∧
        t.pc = s.pc + 3 ∧ Unchanged s t [.reg i, .pc]

/-- 40_alu.md R113 (the low nibble of the opcode byte: decision D2, log 7). -/
def Obligations.MulWritesTheLowByteOfTheProduct : Prop :=
  ∀ (a b : Byte) (s : State),
    (∀ (h : Bool) (rest : List Byte), decode h (0xA2 :: a :: b :: rest) = .ok (.mul a b, rest)) ∧
    (7 < a.toNat ∨ 7 < b.toNat → exec (.mul a b) s = .next { s with run := .faulted .invalidOperand }) ∧
    ∀ i j : Fin 8, a.toNat = i.val → b.toNat = j.val →
      ∃ t, exec (.mul a b) s = .next t ∧ (t.reg i).toNat = ((s.reg i).toNat * (s.reg j).toNat) % 256 ∧
        t.pc = s.pc + 3 ∧ Unchanged s t [.reg i, .pc]

/-- 40_alu.md section 2, DIV (decisions D5, D8; log 1, log 8): an instruction only when `HAS_DIV`; a zero divisor faults;
else the unsigned quotient. -/
def Obligations.DivWritesTheQuotientOrFaults : Prop :=
  ∀ (a b : Byte) (s : State),
    (∀ rest : List Byte, decode true (0xA3 :: a :: b :: rest) = .ok (.div a b, rest)) ∧
    (∀ rest : List Byte, decode false (0xA3 :: a :: b :: rest) = .error .unknownOpcode) ∧
    (7 < a.toNat ∨ 7 < b.toNat → exec (.div a b) s = .next { s with run := .faulted .invalidOperand }) ∧
    ∀ i j : Fin 8, a.toNat = i.val → b.toNat = j.val →
      ((s.reg j).toNat = 0 → exec (.div a b) s = .next { s with run := .faulted .divisionByZero }) ∧
      ((s.reg j).toNat ≠ 0 →
        ∃ t, exec (.div a b) s = .next t ∧ (t.reg i).toNat = (s.reg i).toNat / (s.reg j).toNat ∧
          t.pc = s.pc + 3 ∧ Unchanged s t [.reg i, .pc])

/-- 40_alu.md R115 (the low nibble of the opcode byte: decision D2, log 7). -/
def Obligations.CmpSetsExactlyTheFlagOfTheOutcome : Prop :=
  ∀ (a b : Byte) (s : State),
    (∀ (h : Bool) (rest : List Byte), decode h (0xA7 :: a :: b :: rest) = .ok (.cmp a b, rest)) ∧
    (7 < a.toNat ∨ 7 < b.toNat → exec (.cmp a b) s = .next { s with run := .faulted .invalidOperand }) ∧
    ∀ i j : Fin 8, a.toNat = i.val → b.toNat = j.val →
      ∃ t, exec (.cmp a b) s = .next t ∧
        ((s.reg i).toNat = (s.reg j).toNat → t.fl.l = false ∧ t.fl.g = false ∧ t.fl.e = true) ∧
        ((s.reg i).toNat > (s.reg j).toNat → t.fl.l = false ∧ t.fl.g = true ∧ t.fl.e = false) ∧
        ((s.reg i).toNat < (s.reg j).toNat → t.fl.l = true ∧ t.fl.g = false ∧ t.fl.e = false) ∧
        t.pc = s.pc + 3 ∧ Unchanged s t [.flagL, .flagG, .flagE, .pc]

/-- 40_alu.md R116, R117, R118 (the low nibbles of the opcode bytes: decision D2, log 7). -/
def Obligations.AndOrXorWorkBitByBit : Prop :=
  ∀ (a b : Byte) (s : State),
    (∀ (h : Bool) (rest : List Byte), decode h (0xA8 :: a :: b :: rest) = .ok (.and a b, rest) ∧
      decode h (0xAA :: a :: b :: rest) = .ok (.or a b, rest) ∧
      decode h (0xAB :: a :: b :: rest) = .ok (.xor a b, rest)) ∧
    (7 < a.toNat ∨ 7 < b.toNat →
      exec (.and a b) s = .next { s with run := .faulted .invalidOperand } ∧
      exec (.or a b) s = .next { s with run := .faulted .invalidOperand } ∧
      exec (.xor a b) s = .next { s with run := .faulted .invalidOperand }) ∧
    ∀ i j : Fin 8, a.toNat = i.val → b.toNat = j.val →
      (∃ t, exec (.and a b) s = .next t ∧
        (∀ k, k < 8 → (t.reg i).getLsbD k = ((s.reg i).getLsbD k && (s.reg j).getLsbD k)) ∧
        t.pc = s.pc + 3 ∧ Unchanged s t [.reg i, .pc]) ∧
      (∃ t, exec (.or a b) s = .next t ∧
        (∀ k, k < 8 → (t.reg i).getLsbD k = ((s.reg i).getLsbD k || (s.reg j).getLsbD k)) ∧
        t.pc = s.pc + 3 ∧ Unchanged s t [.reg i, .pc]) ∧
      ∃ t, exec (.xor a b) s = .next t ∧
        (∀ k, k < 8 → ((t.reg i).getLsbD k = true ↔ (s.reg i).getLsbD k ≠ (s.reg j).getLsbD k)) ∧
        t.pc = s.pc + 3 ∧ Unchanged s t [.reg i, .pc]

/-- 40_alu.md R119 (the low nibble of the opcode byte: decision D2, log 7). -/
def Obligations.NotWritesTheOnesComplement : Prop :=
  ∀ (a : Byte) (s : State),
    (∀ (h : Bool) (rest : List Byte), decode h (0x69 :: a :: rest) = .ok (.not a, rest)) ∧
    (7 < a.toNat → exec (.not a) s = .next { s with run := .faulted .invalidOperand }) ∧
    ∀ i : Fin 8, a.toNat = i.val →
      ∃ t, exec (.not a) s = .next t ∧ (t.reg i).toNat = 255 - (s.reg i).toNat ∧
        t.pc = s.pc + 2 ∧ Unchanged s t [.reg i, .pc]

/-- 40_alu.md section 2, SHL (decisions D4, D7; log 8): the whole byte is the amount, so 8 and above give 0. -/
def Obligations.ShlMultipliesByThePowerOfTwo : Prop :=
  ∀ (a b : Byte) (s : State),
    (∀ (h : Bool) (rest : List Byte), decode h (0xAC :: a :: b :: rest) = .ok (.shl a b, rest)) ∧
    (7 < a.toNat ∨ 7 < b.toNat → exec (.shl a b) s = .next { s with run := .faulted .invalidOperand }) ∧
    ∀ i j : Fin 8, a.toNat = i.val → b.toNat = j.val →
      ∃ t, exec (.shl a b) s = .next t ∧ (t.reg i).toNat = ((s.reg i).toNat * 2 ^ (s.reg j).toNat) % 256 ∧
        ((s.reg j).toNat ≥ 8 → t.reg i = 0) ∧ t.pc = s.pc + 3 ∧ Unchanged s t [.reg i, .pc]

/-- 40_alu.md section 2, SHR (decisions D4, D7; log 8): logical, the whole byte is the amount, so 8 and above give 0. -/
def Obligations.ShrDividesByThePowerOfTwo : Prop :=
  ∀ (a b : Byte) (s : State),
    (∀ (h : Bool) (rest : List Byte), decode h (0xAD :: a :: b :: rest) = .ok (.shr a b, rest)) ∧
    (7 < a.toNat ∨ 7 < b.toNat → exec (.shr a b) s = .next { s with run := .faulted .invalidOperand }) ∧
    ∀ i j : Fin 8, a.toNat = i.val → b.toNat = j.val →
      ∃ t, exec (.shr a b) s = .next t ∧ (t.reg i).toNat = (s.reg i).toNat / 2 ^ (s.reg j).toNat ∧
        ((s.reg j).toNat ≥ 8 → t.reg i = 0) ∧ t.pc = s.pc + 3 ∧ Unchanged s t [.reg i, .pc]

/-! ## The instructions of 41_stack.md -/

/-- 41_stack.md R141 (the low nibble of the opcode byte: decision D2, log 7). -/
def Obligations.PushStoresBelowTheStackPointer : Prop :=
  ∀ (a : Byte) (s : State),
    (∀ (h : Bool) (rest : List Byte), decode h (0x45 :: a :: rest) = .ok (.push a, rest)) ∧
    (7 < a.toNat → exec (.push a) s = .next { s with run := .faulted .invalidOperand }) ∧
    ∀ i : Fin 8, a.toNat = i.val →
      (s.sp.toNat = 0 → exec (.push a) s = .next { s with run := .faulted .stackUnderflow }) ∧
      (s.sp.toNat ≠ 0 →
        ∃ t, exec (.push a) s = .next t ∧ t.readMem (s.sp.toNat - 1) = s.reg i ∧ t.sp.toNat = s.sp.toNat - 1 ∧
          t.pc = s.pc + 2 ∧ Unchanged s t [.cell (s.sp.toNat - 1), .sp, .pc])

/-- 41_stack.md section 2, POP (its StackOverflow bound is decision D11; that an unwritten cell is simply read is D26), with
the source's property that a PUSH followed by a POP restores the value and the stack pointer. -/
def Obligations.PopReadsAtTheStackPointer : Prop :=
  (∀ (a : Byte) (s : State),
    (∀ (h : Bool) (rest : List Byte), decode h (0x46 :: a :: rest) = .ok (.pop a, rest)) ∧
    (7 < a.toNat → exec (.pop a) s = .next { s with run := .faulted .invalidOperand }) ∧
    ∀ i : Fin 8, a.toNat = i.val →
      (s.sp.toNat = 255 → exec (.pop a) s = .next { s with run := .faulted .stackOverflow }) ∧
      (s.sp.toNat ≠ 255 →
        ∃ t, exec (.pop a) s = .next t ∧ t.reg i = s.readMem s.sp.toNat ∧ t.sp.toNat = s.sp.toNat + 1 ∧
          t.pc = s.pc + 2 ∧ Unchanged s t [.reg i, .sp, .pc])) ∧
  ∀ (a b : Byte) (i j : Fin 8) (s : State), a.toNat = i.val → b.toNat = j.val → s.sp.toNat ≠ 0 →
    ∃ t u, exec (.push a) s = .next t ∧ exec (.pop b) t = .next u ∧ u.reg j = s.reg i ∧ u.sp = s.sp

/-- 41_stack.md section 2, CALL (the fault of a return address above 255 is decision D12, the order of the checks D14). -/
def Obligations.CallPushesTheReturnAddressAndJumps : Prop :=
  ∀ (a : Byte) (s : State),
    (∀ (h : Bool) (rest : List Byte), decode h (0x50 :: a :: rest) = .ok (.call a, rest)) ∧
    (7 < a.toNat → exec (.call a) s = .next { s with run := .faulted .invalidOperand }) ∧
    ∀ i : Fin 8, a.toNat = i.val →
      (255 < s.pc.toNat + 2 → exec (.call a) s = .next { s with run := .faulted .invalidOperand }) ∧
      (s.pc.toNat + 2 ≤ 255 → s.sp.toNat = 0 →
        exec (.call a) s = .next { s with run := .faulted .stackUnderflow }) ∧
      (s.pc.toNat + 2 ≤ 255 → s.sp.toNat ≠ 0 →
        ∃ t, exec (.call a) s = .next t ∧ (t.readMem (s.sp.toNat - 1)).toNat = s.pc.toNat + 2 ∧
          t.sp.toNat = s.sp.toNat - 1 ∧ t.pc.toNat = (s.reg i).toNat ∧
          Unchanged s t [.cell (s.sp.toNat - 1), .sp, .pc])

/-- 41_stack.md R144 (the low nibble of the opcode byte: decision D2, log 7). -/
def Obligations.RetPopsIntoThePc : Prop :=
  (∀ (h : Bool) (rest : List Byte), decode h (0x11 :: rest) = .ok (.ret, rest)) ∧
  (∀ s : State,
    (s.sp.toNat = 255 → exec .ret s = .next { s with run := .faulted .stackOverflow }) ∧
    (s.sp.toNat ≠ 255 →
      ∃ t, exec .ret s = .next t ∧ t.pc.toNat = (s.readMem s.sp.toNat).toNat ∧ t.sp.toNat = s.sp.toNat + 1 ∧
        Unchanged s t [.sp, .pc])) ∧
  ∀ (a : Byte) (i : Fin 8) (s : State), a.toNat = i.val → s.pc.toNat + 2 ≤ 255 → s.sp.toNat ≠ 0 →
    ∃ t u, exec (.call a) s = .next t ∧ exec .ret t = .next u ∧ u.pc.toNat = s.pc.toNat + 2 ∧ u.sp = s.sp

/-! ## The instructions of 42_control.md -/

/-- 42_control.md section 2, HLT (that `pc` goes past the HLT is decision D16, log 13). -/
def Obligations.HltEndsTheRun : Prop :=
  (∀ (h : Bool) (rest : List Byte), decode h (0x01 :: rest) = .ok (.hlt, rest)) ∧
  ∀ s : State, ∃ t, exec .hlt s = .next t ∧ t.run = .halted ∧ t.pc = s.pc + 1 ∧ Unchanged s t [.run, .pc]

/-- 42_control.md R162 (the low nibble of the opcode byte: decision D2, log 7). -/
def Obligations.LdiWritesTheImmediate : Prop :=
  ∀ (a imm : Byte) (s : State),
    (∀ (h : Bool) (rest : List Byte), decode h (0x82 :: a :: imm :: rest) = .ok (.ldi a imm, rest)) ∧
    (7 < a.toNat → exec (.ldi a imm) s = .next { s with run := .faulted .invalidOperand }) ∧
    ∀ i : Fin 8, a.toNat = i.val →
      ∃ t, exec (.ldi a imm) s = .next t ∧ t.reg i = imm ∧ t.pc = s.pc + 3 ∧ Unchanged s t [.reg i, .pc]

/-- 42_control.md R163 (the low nibble of the opcode byte: decision D2, log 7), with its property that LDI followed by PRN
emits exactly the value. -/
def Obligations.PrnAppendsTheRegisterToTheOutput : Prop :=
  (∀ (a : Byte) (s : State),
    (∀ (h : Bool) (rest : List Byte), decode h (0x47 :: a :: rest) = .ok (.prn a, rest)) ∧
    (7 < a.toNat → exec (.prn a) s = .next { s with run := .faulted .invalidOperand }) ∧
    ∀ i : Fin 8, a.toNat = i.val →
      ∃ t, exec (.prn a) s = .next t ∧ t.out = s.out ++ [s.reg i] ∧ t.pc = s.pc + 2 ∧ Unchanged s t [.out, .pc]) ∧
  ∀ (a v : Byte) (s : State), a.toNat ≤ 7 →
    ∃ t u, exec (.ldi a v) s = .next t ∧ exec (.prn a) t = .next u ∧ u.out = s.out ++ [v]

/-- 42_control.md R164 (the low nibble of the opcode byte: decision D2, log 7). -/
def Obligations.JmpGoesToTheRegistersAddress : Prop :=
  ∀ (a : Byte) (s : State),
    (∀ (h : Bool) (rest : List Byte), decode h (0x54 :: a :: rest) = .ok (.jmp a, rest)) ∧
    (7 < a.toNat → exec (.jmp a) s = .next { s with run := .faulted .invalidOperand }) ∧
    ∀ i : Fin 8, a.toNat = i.val →
      ∃ t, exec (.jmp a) s = .next t ∧ t.pc.toNat = (s.reg i).toNat ∧ Unchanged s t [.pc]

/-- 42_control.md section 2, JEQ (that its register is checked even when it does not jump is decision D14). -/
def Obligations.JeqJumpsWhenEqualIsSet : Prop :=
  ∀ (a : Byte) (s : State),
    (∀ (h : Bool) (rest : List Byte), decode h (0x55 :: a :: rest) = .ok (.jeq a, rest)) ∧
    (7 < a.toNat → exec (.jeq a) s = .next { s with run := .faulted .invalidOperand }) ∧
    ∀ i : Fin 8, a.toNat = i.val →
      ∃ t, exec (.jeq a) s = .next t ∧ (s.fl.e = true → t.pc.toNat = (s.reg i).toNat) ∧
        (s.fl.e = false → t.pc = s.pc + 2) ∧ Unchanged s t [.pc]

/-- 42_control.md R166 (the low nibble of the opcode byte: decision D2, log 7). -/
def Obligations.JneJumpsWhenEqualIsClear : Prop :=
  ∀ (a : Byte) (s : State),
    (∀ (h : Bool) (rest : List Byte), decode h (0x56 :: a :: rest) = .ok (.jne a, rest)) ∧
    (7 < a.toNat → exec (.jne a) s = .next { s with run := .faulted .invalidOperand }) ∧
    ∀ i : Fin 8, a.toNat = i.val →
      ∃ t, exec (.jne a) s = .next t ∧ (s.fl.e = false → t.pc.toNat = (s.reg i).toNat) ∧
        (s.fl.e = true → t.pc = s.pc + 2) ∧ Unchanged s t [.pc]
end

