-- ==== Sys2Proof/Laws/Memory.lean ====
section
/-! SUPPORT. Memory: reading after a write, and that every memory operation keeps the canonical form. -/

namespace Sys2Proof.Machine

/-! ## Reading after an operation -/

@[simp] theorem Memory.read_nil (a : Nat) : Memory.read [] a = Memory.unlisted := rfl

theorem Memory.read_cons (c : Host.Cell) (m : Memory) (a : Nat) :
    Memory.read (c :: m) a = if c.1 = a then c.2 else Memory.read m a := rfl

/-- A cell reads what an entry of it says, or as unlisted. -/
theorem Memory.read_eq_or_mem (m : Memory) (a : Nat) : m.read a = Memory.unlisted ∨ (a, m.read a) ∈ m := by
  induction m with
  | nil => exact .inl rfl
  | cons c m ih =>
    by_cases h : c.1 = a
    · right
      subst h
      simp [Memory.read_cons]
    · simpa [Memory.read_cons, h] using ih.imp_right .inr

/-- An address without an entry reads as unlisted. -/
theorem Memory.read_of_not_listed {m : Memory} {a : Nat} (h : ∀ c ∈ m, c.1 ≠ a) :
    m.read a = Memory.unlisted := by
  rcases m.read_eq_or_mem a with h' | h'
  · exact h'
  · exact absurd rfl (h _ h')

theorem Memory.mem_without {m : Memory} {a : Nat} {c : Host.Cell} : c ∈ Memory.without m a ↔ c ∈ m ∧ c.1 ≠ a := by
  simp [Memory.without]

theorem Memory.read_without (m : Memory) (a b : Nat) :
    Memory.read (Memory.without m a) b = if b = a then Memory.unlisted else m.read b := by
  by_cases hb : b = a
  · subst hb
    simpa using Memory.read_of_not_listed fun c hc => (Memory.mem_without.mp hc).2
  · rw [if_neg hb]
    induction m with
    | nil => rfl
    | cons c m ih =>
      by_cases hc : c.1 = a
      · have hcb : c.1 ≠ b := fun e => hb (e ▸ hc)
        have he : Memory.without (c :: m) a = Memory.without m a := by simp [Memory.without, hc]
        rw [he, ih, Memory.read_cons, if_neg hcb]
      · have he : Memory.without (c :: m) a = c :: Memory.without m a := by simp [Memory.without, hc]
        rw [he, Memory.read_cons, Memory.read_cons, ih]

theorem Memory.mem_place {m : Memory} {a : Nat} {v : Byte} {c : Host.Cell} :
    c ∈ Memory.place m a v ↔ c = (a, v) ∨ c ∈ m := by
  induction m with
  | nil => simp [Memory.place]
  | cons d m ih =>
    unfold Memory.place
    split
    · simp
    · rw [List.mem_cons, ih, List.mem_cons]
      tauto

theorem Memory.read_place {m : Memory} {a : Nat} (v : Byte) (b : Nat) (h : ∀ c ∈ m, c.1 ≠ a) :
    (Memory.place m a v).read b = if b = a then v else m.read b := by
  induction m with
  | nil => simp [Memory.place, Memory.read_cons, eq_comm]
  | cons d m ih =>
    have hd : d.1 ≠ a := h d (by simp)
    have ih' := ih fun c hc => h c (by simp [hc])
    unfold Memory.place
    split
    · simp [Memory.read_cons, eq_comm]
    · rw [Memory.read_cons, Memory.read_cons, ih']
      by_cases hb : b = a
      · subst hb
        simp [hd]
      · simp [hb]

/-- A read after a write: the written cell has the value, every other cell is as before. -/
theorem Memory.read_write (m : Memory) (a b : Nat) (v : Byte) :
    (m.write a v).read b = if b = a then v else m.read b := by
  unfold Memory.write
  split
  · next hv => rw [Memory.read_without, hv]
  · rw [Memory.read_place v b fun c hc => (Memory.mem_without.mp hc).2, Memory.read_without]
    split <;> rfl

theorem State.readMem_writeMem (s : State) (a b : Nat) (v : Byte) :
    (s.writeMem a v).readMem b = if b = a then v else s.readMem b := Memory.read_write _ _ _ _

@[simp] theorem State.readMem_writeMem_self (s : State) (a : Nat) (v : Byte) : (s.writeMem a v).readMem a = v := by
  simp [State.readMem_writeMem]

theorem State.readMem_writeMem_ne (s : State) {a b : Nat} (h : b ≠ a) (v : Byte) :
    (s.writeMem a v).readMem b = s.readMem b := by
  simp [State.readMem_writeMem, h]

/-- A read after a block of bytes is stored. -/
theorem Memory.read_writeList (m : Memory) (a : Nat) (vs : List Byte) (b : Nat) :
    (m.writeList a vs).read b = if a ≤ b then vs.getD (b - a) (m.read b) else m.read b := by
  induction vs generalizing m a with
  | nil => simp [Memory.writeList]
  | cons v vs ih =>
    rw [Memory.writeList, ih, Memory.read_write]
    rcases Nat.lt_trichotomy b a with h | h | h
    · have h1 : ¬ a + 1 ≤ b := by omega
      have h2 : ¬ a ≤ b := by omega
      have h3 : b ≠ a := by omega
      simp [h1, h2, h3]
    · subst h
      simp
    · have h1 : a + 1 ≤ b := by omega
      have h2 : a ≤ b := by omega
      have h3 : b ≠ a := by omega
      have h4 : b - a = (b - (a + 1)) + 1 := by omega
      simp [h1, h2, h3, h4]

/-! ## The canonical form is kept -/

theorem Memory.wf_nil : Memory.wf [] := by decide

theorem Memory.wf_without {m : Memory} (h : m.wf) (a : Nat) : (Memory.without m a).wf :=
  ⟨h.1.filter _, fun c hc => h.2 c (Memory.mem_without.mp hc).1⟩

theorem Memory.pairwise_place {m : Memory} {a : Nat} (v : Byte)
    (h : m.Pairwise fun p q => p.1 < q.1) (ha : ∀ c ∈ m, c.1 ≠ a) :
    (Memory.place m a v).Pairwise fun p q => p.1 < q.1 := by
  induction m with
  | nil => simp [Memory.place]
  | cons d m ih =>
    rw [List.pairwise_cons] at h
    have hd : d.1 ≠ a := ha d (by simp)
    unfold Memory.place
    split
    · next hlt =>
      refine List.pairwise_cons.mpr ⟨fun c hc => ?_, List.pairwise_cons.mpr h⟩
      rcases List.mem_cons.mp hc with rfl | hc
      · exact hlt
      · exact Nat.lt_trans hlt (h.1 c hc)
    · refine List.pairwise_cons.mpr ⟨fun c hc => ?_, ih h.2 fun c hc => ha c (by simp [hc])⟩
      rcases Memory.mem_place.mp hc with rfl | hc
      · show d.1 < a
        omega
      · exact h.1 c hc

/-- A write inside the address space keeps the canonical form. -/
theorem Memory.wf_write {m : Memory} (h : m.wf) {a : Nat} (ha : a < memSize) (v : Byte) : (m.write a v).wf := by
  have he := Memory.wf_without h a
  unfold Memory.write
  split
  · exact he
  · next hv =>
    refine ⟨Memory.pairwise_place v he.1 fun c hc => (Memory.mem_without.mp hc).2, fun c hc => ?_⟩
    rcases Memory.mem_place.mp hc with rfl | hc
    · exact ⟨ha, hv⟩
    · exact he.2 c hc

theorem Memory.wf_writeList {m : Memory} (h : m.wf) {a : Nat} {vs : List Byte} (ha : a + vs.length ≤ memSize) :
    (m.writeList a vs).wf := by
  induction vs generalizing m a with
  | nil => exact h
  | cons v vs ih =>
    rw [List.length_cons] at ha
    exact ih (Memory.wf_write h (by omega) v) (by omega)

/-- Reset's memory has the canonical form. -/
theorem Memory.wf_reset : State.reset.mem.wf := Memory.wf_nil

end Sys2Proof.Machine
end

