-- ==== Sys2Proof/Laws/State.lean ====
section
/-! SUPPORT. One lemma per field per update of State, so that no proof unfolds a record update. -/

namespace Sys2Proof.Machine

variable (s : State)

/-! ### setReg -/

@[simp] theorem State.setReg_mem (i : Fin 8) (v : Byte) : (s.setReg i v).mem = s.mem := rfl
@[simp] theorem State.setReg_x (i : Fin 8) (v : Byte) : (s.setReg i v).x = s.x.set i v := rfl
@[simp] theorem State.setReg_pc (i : Fin 8) (v : Byte) : (s.setReg i v).pc = s.pc := rfl
@[simp] theorem State.setReg_sp (i : Fin 8) (v : Byte) : (s.setReg i v).sp = s.sp := rfl
@[simp] theorem State.setReg_fl (i : Fin 8) (v : Byte) : (s.setReg i v).fl = s.fl := rfl
@[simp] theorem State.setReg_run (i : Fin 8) (v : Byte) : (s.setReg i v).run = s.run := rfl
@[simp] theorem State.setReg_out (i : Fin 8) (v : Byte) : (s.setReg i v).out = s.out := rfl
@[simp] theorem State.setReg_cfg (i : Fin 8) (v : Byte) : (s.setReg i v).cfg = s.cfg := rfl
@[simp] theorem State.setReg_readMem (i : Fin 8) (v : Byte) (c : Nat) : (s.setReg i v).readMem c = s.readMem c := rfl

/-! ### writeMem -/

@[simp] theorem State.writeMem_mem (a : Nat) (v : Byte) : (s.writeMem a v).mem = s.mem.write a v := rfl
@[simp] theorem State.writeMem_x (a : Nat) (v : Byte) : (s.writeMem a v).x = s.x := rfl
@[simp] theorem State.writeMem_pc (a : Nat) (v : Byte) : (s.writeMem a v).pc = s.pc := rfl
@[simp] theorem State.writeMem_sp (a : Nat) (v : Byte) : (s.writeMem a v).sp = s.sp := rfl
@[simp] theorem State.writeMem_fl (a : Nat) (v : Byte) : (s.writeMem a v).fl = s.fl := rfl
@[simp] theorem State.writeMem_run (a : Nat) (v : Byte) : (s.writeMem a v).run = s.run := rfl
@[simp] theorem State.writeMem_out (a : Nat) (v : Byte) : (s.writeMem a v).out = s.out := rfl
@[simp] theorem State.writeMem_cfg (a : Nat) (v : Byte) : (s.writeMem a v).cfg = s.cfg := rfl
@[simp] theorem State.writeMem_reg (a : Nat) (v : Byte) (j : Fin 8) : (s.writeMem a v).reg j = s.reg j := rfl

/-! ### setPc -/

@[simp] theorem State.setPc_mem (v : PcWord) : (s.setPc v).mem = s.mem := rfl
@[simp] theorem State.setPc_x (v : PcWord) : (s.setPc v).x = s.x := rfl
@[simp] theorem State.setPc_pc (v : PcWord) : (s.setPc v).pc = v := rfl
@[simp] theorem State.setPc_sp (v : PcWord) : (s.setPc v).sp = s.sp := rfl
@[simp] theorem State.setPc_fl (v : PcWord) : (s.setPc v).fl = s.fl := rfl
@[simp] theorem State.setPc_run (v : PcWord) : (s.setPc v).run = s.run := rfl
@[simp] theorem State.setPc_out (v : PcWord) : (s.setPc v).out = s.out := rfl
@[simp] theorem State.setPc_cfg (v : PcWord) : (s.setPc v).cfg = s.cfg := rfl
@[simp] theorem State.setPc_reg (v : PcWord) (j : Fin 8) : (s.setPc v).reg j = s.reg j := rfl
@[simp] theorem State.setPc_readMem (v : PcWord) (c : Nat) : (s.setPc v).readMem c = s.readMem c := rfl

/-! ### advance -/

@[simp] theorem State.advance_mem (n : Nat) : (s.advance n).mem = s.mem := rfl
@[simp] theorem State.advance_x (n : Nat) : (s.advance n).x = s.x := rfl
@[simp] theorem State.advance_pc (n : Nat) : (s.advance n).pc = s.pc + BitVec.ofNat 9 (n + 1) := rfl
@[simp] theorem State.advance_sp (n : Nat) : (s.advance n).sp = s.sp := rfl
@[simp] theorem State.advance_fl (n : Nat) : (s.advance n).fl = s.fl := rfl
@[simp] theorem State.advance_run (n : Nat) : (s.advance n).run = s.run := rfl
@[simp] theorem State.advance_out (n : Nat) : (s.advance n).out = s.out := rfl
@[simp] theorem State.advance_cfg (n : Nat) : (s.advance n).cfg = s.cfg := rfl
@[simp] theorem State.advance_reg (n : Nat) (j : Fin 8) : (s.advance n).reg j = s.reg j := rfl
@[simp] theorem State.advance_readMem (n : Nat) (c : Nat) : (s.advance n).readMem c = s.readMem c := rfl

/-! ### setSp -/

@[simp] theorem State.setSp_mem (v : Byte) : (s.setSp v).mem = s.mem := rfl
@[simp] theorem State.setSp_x (v : Byte) : (s.setSp v).x = s.x := rfl
@[simp] theorem State.setSp_pc (v : Byte) : (s.setSp v).pc = s.pc := rfl
@[simp] theorem State.setSp_sp (v : Byte) : (s.setSp v).sp = v := rfl
@[simp] theorem State.setSp_fl (v : Byte) : (s.setSp v).fl = s.fl := rfl
@[simp] theorem State.setSp_run (v : Byte) : (s.setSp v).run = s.run := rfl
@[simp] theorem State.setSp_out (v : Byte) : (s.setSp v).out = s.out := rfl
@[simp] theorem State.setSp_cfg (v : Byte) : (s.setSp v).cfg = s.cfg := rfl
@[simp] theorem State.setSp_reg (v : Byte) (j : Fin 8) : (s.setSp v).reg j = s.reg j := rfl
@[simp] theorem State.setSp_readMem (v : Byte) (c : Nat) : (s.setSp v).readMem c = s.readMem c := rfl

/-! ### setFlags -/

@[simp] theorem State.setFlags_mem (f : Flags) : (s.setFlags f).mem = s.mem := rfl
@[simp] theorem State.setFlags_x (f : Flags) : (s.setFlags f).x = s.x := rfl
@[simp] theorem State.setFlags_pc (f : Flags) : (s.setFlags f).pc = s.pc := rfl
@[simp] theorem State.setFlags_sp (f : Flags) : (s.setFlags f).sp = s.sp := rfl
@[simp] theorem State.setFlags_fl (f : Flags) : (s.setFlags f).fl = f := rfl
@[simp] theorem State.setFlags_run (f : Flags) : (s.setFlags f).run = s.run := rfl
@[simp] theorem State.setFlags_out (f : Flags) : (s.setFlags f).out = s.out := rfl
@[simp] theorem State.setFlags_cfg (f : Flags) : (s.setFlags f).cfg = s.cfg := rfl
@[simp] theorem State.setFlags_reg (f : Flags) (j : Fin 8) : (s.setFlags f).reg j = s.reg j := rfl
@[simp] theorem State.setFlags_readMem (f : Flags) (c : Nat) : (s.setFlags f).readMem c = s.readMem c := rfl

/-! ### emit -/

@[simp] theorem State.emit_mem (v : Byte) : (s.emit v).mem = s.mem := rfl
@[simp] theorem State.emit_x (v : Byte) : (s.emit v).x = s.x := rfl
@[simp] theorem State.emit_pc (v : Byte) : (s.emit v).pc = s.pc := rfl
@[simp] theorem State.emit_sp (v : Byte) : (s.emit v).sp = s.sp := rfl
@[simp] theorem State.emit_fl (v : Byte) : (s.emit v).fl = s.fl := rfl
@[simp] theorem State.emit_run (v : Byte) : (s.emit v).run = s.run := rfl
@[simp] theorem State.emit_out (v : Byte) : (s.emit v).out = s.out ++ [v] := rfl
@[simp] theorem State.emit_cfg (v : Byte) : (s.emit v).cfg = s.cfg := rfl
@[simp] theorem State.emit_reg (v : Byte) (j : Fin 8) : (s.emit v).reg j = s.reg j := rfl
@[simp] theorem State.emit_readMem (v : Byte) (c : Nat) : (s.emit v).readMem c = s.readMem c := rfl

/-! ### setRun -/

@[simp] theorem State.setRun_mem (r : RunState) : (s.setRun r).mem = s.mem := rfl
@[simp] theorem State.setRun_x (r : RunState) : (s.setRun r).x = s.x := rfl
@[simp] theorem State.setRun_pc (r : RunState) : (s.setRun r).pc = s.pc := rfl
@[simp] theorem State.setRun_sp (r : RunState) : (s.setRun r).sp = s.sp := rfl
@[simp] theorem State.setRun_fl (r : RunState) : (s.setRun r).fl = s.fl := rfl
@[simp] theorem State.setRun_run (r : RunState) : (s.setRun r).run = r := rfl
@[simp] theorem State.setRun_out (r : RunState) : (s.setRun r).out = s.out := rfl
@[simp] theorem State.setRun_cfg (r : RunState) : (s.setRun r).cfg = s.cfg := rfl
@[simp] theorem State.setRun_reg (r : RunState) (j : Fin 8) : (s.setRun r).reg j = s.reg j := rfl
@[simp] theorem State.setRun_readMem (r : RunState) (c : Nat) : (s.setRun r).readMem c = s.readMem c := rfl

/-! ### The register file -/

/-- A register after a write to one: the written register has the value, every other is as before. -/
theorem State.reg_setReg (i j : Fin 8) (v : Byte) :
    (s.setReg i v).reg j = if i = j then v else s.reg j := by
  simp only [State.reg, State.setReg, Fin.getElem_fin, Vector.getElem_set, Fin.ext_iff]

@[simp] theorem State.reg_setReg_self (i : Fin 8) (v : Byte) : (s.setReg i v).reg i = v := by
  simp [State.reg_setReg]

theorem State.reg_setReg_ne {i j : Fin 8} (h : i ≠ j) (v : Byte) : (s.setReg i v).reg j = s.reg j := by
  simp [State.reg_setReg, h]

/-- Two register files that read alike are the same. -/
theorem State.x_ext {s t : State} (h : ∀ i, s.reg i = t.reg i) : s.x = t.x :=
  Vector.ext fun i hi => h ⟨i, hi⟩

end Sys2Proof.Machine
end

