-- ==== Sys2Proof/Laws/Ops.lean ====
section
/-! SUPPORT. What each shared operation can do, said once: register operands, pushes and pops, the ALU shape, jumps, fetch. -/

namespace Sys2Proof.Machine

/-! ## Taking a fault -/

/-- Taking a fault changes the run state and nothing else. -/
theorem takeFault_next {k : FaultKind} {s t : State} (h : takeFault k s = .next t) : t = s.setRun (.faulted k) := by
  cases h
  rfl

theorem takeFault_eq (k : FaultKind) (s : State) : takeFault k s = .next { s with run := .faulted k } := rfl

/-! ## Register operands -/

theorem withReg_valid {b : Byte} {i : Fin 8} (h : b.toNat = i.val) (s : State) (k : Fin 8 → Result) :
    withReg b s k = k i := by
  have hlt : b.toNat < 8 := h ▸ i.isLt
  have hi : (⟨b.toNat, hlt⟩ : Fin 8) = i := Fin.ext h
  rw [withReg, dif_pos hlt, hi]

theorem withReg_invalid {b : Byte} (h : 7 < b.toNat) (s : State) (k : Fin 8 → Result) :
    withReg b s k = takeFault .invalidOperand s := by
  rw [withReg, dif_neg (by omega)]

/-- A register operand either faults or hands its register on. -/
theorem withReg_cases (b : Byte) (s : State) (k : Fin 8 → Result) :
    (7 < b.toNat ∧ withReg b s k = takeFault .invalidOperand s) ∨
      ∃ i : Fin 8, b.toNat = i.val ∧ withReg b s k = k i := by
  by_cases h : b.toNat < 8
  · exact .inr ⟨⟨b.toNat, h⟩, rfl, withReg_valid rfl s k⟩
  · exact .inl ⟨by omega, withReg_invalid (by omega) s k⟩

theorem withRegs_valid {a b : Byte} {i j : Fin 8} (ha : a.toNat = i.val) (hb : b.toNat = j.val) (s : State)
    (k : Fin 8 → Fin 8 → Result) : withRegs a b s k = k i j := by
  rw [withRegs, withReg_valid ha, withReg_valid hb]

theorem withRegs_invalid {a b : Byte} (h : 7 < a.toNat ∨ 7 < b.toNat) (s : State) (k : Fin 8 → Fin 8 → Result) :
    withRegs a b s k = takeFault .invalidOperand s := by
  rcases withReg_cases a s (fun i => withReg b s fun j => k i j) with ⟨_, h'⟩ | ⟨i, hi, h'⟩
  · exact h'
  · rw [withRegs, h']
    exact withReg_invalid (by omega) s _

/-- Two register operands either fault or hand their registers on. -/
theorem withRegs_cases (a b : Byte) (s : State) (k : Fin 8 → Fin 8 → Result) :
    ((7 < a.toNat ∨ 7 < b.toNat) ∧ withRegs a b s k = takeFault .invalidOperand s) ∨
      ∃ i j : Fin 8, a.toNat = i.val ∧ b.toNat = j.val ∧ withRegs a b s k = k i j := by
  by_cases h : 7 < a.toNat ∨ 7 < b.toNat
  · exact .inl ⟨h, withRegs_invalid h s k⟩
  · have ha : a.toNat < 8 := by omega
    have hb : b.toNat < 8 := by omega
    exact .inr ⟨⟨a.toNat, ha⟩, ⟨b.toNat, hb⟩, rfl, rfl, withRegs_valid rfl rfl s k⟩

/-! ## The two-register ALU shape -/

theorem aluBinary_valid (f : Byte → Byte → Byte) {a b : Byte} {i j : Fin 8} (ha : a.toNat = i.val)
    (hb : b.toNat = j.val) (s : State) :
    aluBinary f a b s = .next ((s.setReg i (f (s.reg i) (s.reg j))).advance 2) := by
  rw [aluBinary, withRegs_valid ha hb]

/-- All that an instruction of the ALU shape can do. -/
theorem aluBinary_next {f : Byte → Byte → Byte} {a b : Byte} {s t : State} (h : aluBinary f a b s = .next t) :
    ((7 < a.toNat ∨ 7 < b.toNat) ∧ t = s.setRun (.faulted .invalidOperand)) ∨
      ∃ i j : Fin 8, a.toNat = i.val ∧ b.toNat = j.val ∧
        t = (s.setReg i (f (s.reg i) (s.reg j))).advance 2 := by
  rw [aluBinary] at h
  rcases withRegs_cases a b s (fun i j => .next ((s.setReg i (f (s.reg i) (s.reg j))).advance 2)) with
    ⟨hbad, h'⟩ | ⟨i, j, hi, hj, h'⟩
  · exact .inl ⟨hbad, takeFault_next (h'.symm.trans h)⟩
  · refine .inr ⟨i, j, hi, hj, ?_⟩
    rw [h'] at h
    cases h
    rfl

/-! ## The stack -/

theorem pushThen_fault {s : State} (h : s.sp = 0) (v : Byte) (k : State → Result) :
    pushThen v s k = takeFault .stackUnderflow s := if_pos h

theorem pushThen_ok {s : State} (h : s.sp ≠ 0) (v : Byte) (k : State → Result) :
    pushThen v s k = k ((s.writeMem (s.sp.toNat - 1) v).setSp (s.sp - 1)) := if_neg h

/-- A push either faults or stores below the stack pointer. -/
theorem pushThen_cases (v : Byte) (s : State) (k : State → Result) :
    (s.sp = 0 ∧ pushThen v s k = takeFault .stackUnderflow s) ∨
      (s.sp ≠ 0 ∧ pushThen v s k = k ((s.writeMem (s.sp.toNat - 1) v).setSp (s.sp - 1))) := by
  by_cases h : s.sp = 0
  · exact .inl ⟨h, pushThen_fault h v k⟩
  · exact .inr ⟨h, pushThen_ok h v k⟩

theorem popThen_fault {s : State} (h : s.sp = 255) (k : Byte → State → Result) :
    popThen s k = takeFault .stackOverflow s := if_pos h

theorem popThen_ok {s : State} (h : s.sp ≠ 255) (k : Byte → State → Result) :
    popThen s k = k (s.readMem s.sp.toNat) (s.setSp (s.sp + 1)) := if_neg h

/-- A pop either faults or reads at the stack pointer. -/
theorem popThen_cases (s : State) (k : Byte → State → Result) :
    (s.sp = 255 ∧ popThen s k = takeFault .stackOverflow s) ∨
      (s.sp ≠ 255 ∧ popThen s k = k (s.readMem s.sp.toNat) (s.setSp (s.sp + 1))) := by
  by_cases h : s.sp = 255
  · exact .inl ⟨h, popThen_fault h k⟩
  · exact .inr ⟨h, popThen_ok h k⟩

/-- A stack pointer that is not 0 stores inside the address space. -/
theorem pushAddress_lt (s : State) : s.sp.toNat - 1 < memSize := by
  have := s.sp.isLt
  simp only [memSize]
  omega

/-! ## Jumps -/

theorem jumpIf_valid (taken : Bool) {a : Byte} {i : Fin 8} (ha : a.toNat = i.val) (s : State) :
    jumpIf taken a s = .next (if taken then s.setPc (zext9 (s.reg i)) else s.advance 1) := by
  rw [jumpIf, withReg_valid ha]

/-- The zero-extended byte is the byte's own number. -/
@[simp] theorem zext9_toNat (b : Byte) : (zext9 b).toNat = b.toNat := by
  have := b.isLt
  rw [zext9, BitVec.toNat_setWidth]
  omega

/-- `pc` after an advance of a machine whose `pc` is an address or one past the last. -/
theorem State.advance_pc_toNat {s : State} (h : s.pc.toNat ≤ 256) {n : Nat} (hn : n ≤ 2) :
    (s.advance n).pc.toNat = s.pc.toNat + n + 1 := by
  rw [State.advance_pc, BitVec.toNat_add, BitVec.toNat_ofNat]
  omega

/-! ## Fetch -/

theorem State.fetchBytes_past {s : State} (h : 255 < s.pc.toNat) : s.fetchBytes = [] := by
  have : memSize - s.pc.toNat = 0 := by simp only [memSize]; omega
  simp [State.fetchBytes, this]

theorem State.fetchBytes_length (s : State) : s.fetchBytes.length = min 3 (memSize - s.pc.toNat) := by
  simp [State.fetchBytes]

/-- Below 256 the fetch sees the byte at `pc` first, then what lies above it. -/
theorem State.fetchBytes_head {s : State} (h : s.pc.toNat ≤ 255) :
    s.fetchBytes = s.readMem s.pc.toNat ::
      (List.range' (s.pc.toNat + 1) (min 2 (255 - s.pc.toNat))).map s.readMem := by
  have h' : min 3 (memSize - s.pc.toNat) = min 2 (255 - s.pc.toNat) + 1 := by simp only [memSize]; omega
  rw [State.fetchBytes, h', List.range'_succ, List.map_cons]

theorem operandCount_le (ir : Byte) : operandCount ir ≤ 3 := by
  have := (opcodeFields ir).operandCount.isLt
  rw [operandCount]
  omega

/-! ## The step -/

theorem step_running {s : State} (h : s.run = .running) :
    step s = match decode s.cfg.hasDiv s.fetchBytes with
      | .error e => takeFault (decodeFault e) s
      | .ok (i, _) => exec i s := by
  unfold step
  split <;> first | rfl | simp_all

/-- A step has a next state only from `Running`, and then it is the fault of a fetch that yields no instruction, or the
rule of the decoded instruction. -/
theorem step_next {s t : State} (h : step s = .next t) :
    s.run = .running ∧
      ((∃ e, decode s.cfg.hasDiv s.fetchBytes = .error e ∧ t = s.setRun (.faulted (decodeFault e))) ∨
        ∃ i rest, decode s.cfg.hasDiv s.fetchBytes = .ok (i, rest) ∧ exec i s = .next t) := by
  match hr : s.run with
  | .halted => simp [step, hr] at h
  | .faulted k => simp [step, hr] at h
  | .running =>
    rw [step_running hr] at h
    refine ⟨rfl, ?_⟩
    match hd : decode s.cfg.hasDiv s.fetchBytes with
    | .error e =>
      rw [hd] at h
      exact .inl ⟨e, rfl, takeFault_next h⟩
    | .ok (i, rest) =>
      rw [hd] at h
      exact .inr ⟨i, rest, rfl, h⟩

end Sys2Proof.Machine
end

