-- ==== Sys2Proof/Laws/Exec.lean ====
section
/-! SUPPORT. Inversion of exec: all that an instruction can do, said once. Either it takes a fault, for one of the causes listed with their guards, or it has the effect its rule gives. -/

namespace Sys2Proof.Machine

/-- Why an instruction's own rule raises a fault, with the checks that came before it (60_exceptions.md R206 lines 5 to 8). -/
inductive FaultCause : Instr → State → FaultKind → Prop
  | register {i s} (b : Byte) (mem : b ∈ i.regOperands) (bad : 7 < b.toNat) : FaultCause i s .invalidOperand
  | returnAddress {s} (a : Byte) (r : Fin 8) (ha : a.toNat = r.val) (high : 255 < s.pc.toNat + 2) :
      FaultCause (.call a) s .invalidOperand
  | divisor {s} (a b : Byte) (r q : Fin 8) (ha : a.toNat = r.val) (hb : b.toNat = q.val) (zero : s.reg q = 0) :
      FaultCause (.div a b) s .divisionByZero
  | push {s} (a : Byte) (r : Fin 8) (ha : a.toNat = r.val) (zero : s.sp = 0) : FaultCause (.push a) s .stackUnderflow
  | call {s} (a : Byte) (r : Fin 8) (ha : a.toNat = r.val) (low : s.pc.toNat + 2 ≤ 255) (zero : s.sp = 0) :
      FaultCause (.call a) s .stackUnderflow
  | pop {s} (a : Byte) (r : Fin 8) (ha : a.toNat = r.val) (top : s.sp = 255) : FaultCause (.pop a) s .stackOverflow
  | ret {s} (top : s.sp = 255) : FaultCause .ret s .stackOverflow

/-- The instructions of the two-register ALU shape that cannot fault on their values, each with its function. -/
def binaryOps (a b : Byte) : List (Instr × (Byte → Byte → Byte)) :=
  [(.add a b, fun u v => u + v), (.sub a b, fun u v => u - v), (.mul a b, fun u v => u * v),
    (.and a b, fun u v => u &&& v), (.or a b, fun u v => u ||| v), (.xor a b, fun u v => u ^^^ v),
    (.shl a b, fun u v => u <<< v.toNat), (.shr a b, fun u v => u >>> v.toNat)]

/-- The next states an instruction can have from `s`. -/
inductive Effect : Instr → State → State → Prop
  | fault {i s k} (cause : FaultCause i s k) : Effect i s (s.setRun (.faulted k))
  | binary {i s f} (a b : Byte) (r q : Fin 8) (op : (i, f) ∈ binaryOps a b) (ha : a.toNat = r.val) (hb : b.toNat = q.val) :
      Effect i s ((s.setReg r (f (s.reg r) (s.reg q))).advance 2)
  | div {s} (a b : Byte) (r q : Fin 8) (ha : a.toNat = r.val) (hb : b.toNat = q.val) (nonzero : s.reg q ≠ 0) :
      Effect (.div a b) s ((s.setReg r (s.reg r / s.reg q)).advance 2)
  | cmp {s} (a b : Byte) (r q : Fin 8) (ha : a.toNat = r.val) (hb : b.toNat = q.val) :
      Effect (.cmp a b) s ((s.setFlags (Flags.compare (s.reg r) (s.reg q))).advance 2)
  | not {s} (a : Byte) (r : Fin 8) (ha : a.toNat = r.val) : Effect (.not a) s ((s.setReg r (~~~ s.reg r)).advance 1)
  | hlt {s} : Effect .hlt s ((s.setRun .halted).advance 0)
  | ldi {s} (a imm : Byte) (r : Fin 8) (ha : a.toNat = r.val) : Effect (.ldi a imm) s ((s.setReg r imm).advance 2)
  | push {s} (a : Byte) (r : Fin 8) (ha : a.toNat = r.val) (nonzero : s.sp ≠ 0) :
      Effect (.push a) s (((s.writeMem (s.sp.toNat - 1) (s.reg r)).setSp (s.sp - 1)).advance 1)
  | pop {s} (a : Byte) (r : Fin 8) (ha : a.toNat = r.val) (below : s.sp ≠ 255) :
      Effect (.pop a) s (((s.setSp (s.sp + 1)).setReg r (s.readMem s.sp.toNat)).advance 1)
  | prn {s} (a : Byte) (r : Fin 8) (ha : a.toNat = r.val) : Effect (.prn a) s ((s.emit (s.reg r)).advance 1)
  | call {s} (a : Byte) (r : Fin 8) (ha : a.toNat = r.val) (low : s.pc.toNat + 2 ≤ 255) (nonzero : s.sp ≠ 0) :
      Effect (.call a) s
        (((s.writeMem (s.sp.toNat - 1) (BitVec.ofNat 8 (s.pc.toNat + 2))).setSp (s.sp - 1)).setPc (zext9 (s.reg r)))
  | ret {s} (below : s.sp ≠ 255) : Effect .ret s ((s.setSp (s.sp + 1)).setPc (zext9 (s.readMem s.sp.toNat)))
  | jump {i s} (a : Byte) (r : Fin 8) (ha : a.toNat = r.val)
      (taken : i = .jmp a ∨ i = .jeq a ∧ s.fl.e = true ∨ i = .jne a ∧ s.fl.e = false) :
      Effect i s (s.setPc (zext9 (s.reg r)))
  | skip {i s} (a : Byte) (r : Fin 8) (ha : a.toNat = r.val)
      (notTaken : i = .jeq a ∧ s.fl.e = false ∨ i = .jne a ∧ s.fl.e = true) : Effect i s (s.advance 1)

/-- A register operand in an instruction's rule: the fault case once, the rest left to the instruction. -/
theorem withReg_effect {i : Instr} {b : Byte} {s t : State} {k : Fin 8 → Result} (hb : b ∈ i.regOperands)
    (h : withReg b s k = .next t) (hk : ∀ r : Fin 8, b.toNat = r.val → k r = .next t → Effect i s t) : Effect i s t := by
  rcases withReg_cases b s k with ⟨bad, h'⟩ | ⟨r, hr, h'⟩ <;> rw [h'] at h
  · cases takeFault_next h
    exact .fault (.register b hb bad)
  · exact hk r hr h

theorem withRegs_effect {i : Instr} {a b : Byte} {s t : State} {k : Fin 8 → Fin 8 → Result} (ha : a ∈ i.regOperands)
    (hb : b ∈ i.regOperands) (h : withRegs a b s k = .next t)
    (hk : ∀ r q : Fin 8, a.toNat = r.val → b.toNat = q.val → k r q = .next t → Effect i s t) : Effect i s t :=
  withReg_effect ha h fun r hr h => withReg_effect hb h fun q hq h => hk r q hr hq h

theorem aluBinary_effect {i : Instr} {f : Byte → Byte → Byte} {a b : Byte} {s t : State} (op : (i, f) ∈ binaryOps a b)
    (ha : a ∈ i.regOperands) (hb : b ∈ i.regOperands) (h : aluBinary f a b s = .next t) : Effect i s t :=
  withRegs_effect ha hb h fun r q hr hq h => by
    cases h
    exact .binary a b r q op hr hq

theorem jumpIf_effect {i : Instr} {taken : Bool} {a : Byte} {s t : State} (ha : a ∈ i.regOperands)
    (hyes : taken = true → i = .jmp a ∨ i = .jeq a ∧ s.fl.e = true ∨ i = .jne a ∧ s.fl.e = false)
    (hno : taken = false → i = .jeq a ∧ s.fl.e = false ∨ i = .jne a ∧ s.fl.e = true)
    (h : jumpIf taken a s = .next t) : Effect i s t :=
  withReg_effect ha h fun r hr h => by
    cases taken <;> cases h
    · exact .skip a r hr (hno rfl)
    · exact .jump a r hr (hyes rfl)

/-- What `exec` answers, if it answers a next state, is one of the effects of the instruction. -/
theorem exec_effect {i : Instr} {s t : State} (h : exec i s = .next t) : Effect i s t := by
  cases i with
  | add a b => exact aluBinary_effect (by simp [binaryOps]) (by simp [Instr.regOperands]) (by simp [Instr.regOperands]) h
  | sub a b => exact aluBinary_effect (by simp [binaryOps]) (by simp [Instr.regOperands]) (by simp [Instr.regOperands]) h
  | mul a b => exact aluBinary_effect (by simp [binaryOps]) (by simp [Instr.regOperands]) (by simp [Instr.regOperands]) h
  | and a b => exact aluBinary_effect (by simp [binaryOps]) (by simp [Instr.regOperands]) (by simp [Instr.regOperands]) h
  | or a b => exact aluBinary_effect (by simp [binaryOps]) (by simp [Instr.regOperands]) (by simp [Instr.regOperands]) h
  | xor a b => exact aluBinary_effect (by simp [binaryOps]) (by simp [Instr.regOperands]) (by simp [Instr.regOperands]) h
  | shl a b =>
    exact aluBinary_effect (f := fun u v => u <<< v.toNat) (by simp [binaryOps]) (by simp [Instr.regOperands])
      (by simp [Instr.regOperands]) h
  | shr a b =>
    exact aluBinary_effect (f := fun u v => u >>> v.toNat) (by simp [binaryOps]) (by simp [Instr.regOperands])
      (by simp [Instr.regOperands]) h
  | div a b =>
    simp only [exec, execDiv] at h
    refine withRegs_effect (by simp [Instr.regOperands]) (by simp [Instr.regOperands]) h fun r q hr hq h => ?_
    split at h
    · next h0 =>
      cases takeFault_next h
      exact .fault (.divisor a b r q hr hq h0)
    · next h0 =>
      cases h
      exact .div a b r q hr hq h0
  | cmp a b =>
    simp only [exec, execCmp] at h
    refine withRegs_effect (by simp [Instr.regOperands]) (by simp [Instr.regOperands]) h fun r q hr hq h => ?_
    cases h
    exact .cmp a b r q hr hq
  | not a =>
    simp only [exec, execNot] at h
    refine withReg_effect (by simp [Instr.regOperands]) h fun r hr h => ?_
    cases h
    exact .not a r hr
  | hlt =>
    cases h
    exact .hlt
  | ldi a imm =>
    simp only [exec, execLdi] at h
    refine withReg_effect (by simp [Instr.regOperands]) h fun r hr h => ?_
    cases h
    exact .ldi a imm r hr
  | push a =>
    simp only [exec, execPush] at h
    refine withReg_effect (by simp [Instr.regOperands]) h fun r hr h => ?_
    rcases pushThen_cases (s.reg r) s (fun t => .next (t.advance 1)) with ⟨h0, h'⟩ | ⟨h0, h'⟩ <;> rw [h'] at h
    · cases takeFault_next h
      exact .fault (.push a r hr h0)
    · cases h
      exact .push a r hr h0
  | pop a =>
    simp only [exec, execPop] at h
    refine withReg_effect (by simp [Instr.regOperands]) h fun r hr h => ?_
    rcases popThen_cases s (fun v t => .next ((t.setReg r v).advance 1)) with ⟨h0, h'⟩ | ⟨h0, h'⟩ <;> rw [h'] at h
    · cases takeFault_next h
      exact .fault (.pop a r hr h0)
    · cases h
      exact .pop a r hr h0
  | prn a =>
    simp only [exec, execPrn] at h
    refine withReg_effect (by simp [Instr.regOperands]) h fun r hr h => ?_
    cases h
    exact .prn a r hr
  | call a =>
    simp only [exec, execCall] at h
    refine withReg_effect (by simp [Instr.regOperands]) h fun r hr h => ?_
    split at h
    · next hp =>
      cases takeFault_next h
      exact .fault (.returnAddress a r hr hp)
    · next hp =>
      rcases pushThen_cases (BitVec.ofNat 8 (s.pc.toNat + 2)) s (fun t => .next (t.setPc (zext9 (s.reg r)))) with
        ⟨h0, h'⟩ | ⟨h0, h'⟩ <;> rw [h'] at h
      · cases takeFault_next h
        exact .fault (.call a r hr (by omega) h0)
      · cases h
        exact .call a r hr (by omega) h0
  | ret =>
    change popThen s (fun v t => .next (t.setPc (zext9 v))) = _ at h
    rcases popThen_cases s (fun v t => .next (t.setPc (zext9 v))) with ⟨h0, h'⟩ | ⟨h0, h'⟩ <;> rw [h'] at h
    · cases takeFault_next h
      exact .fault (.ret h0)
    · cases h
      exact .ret h0
  | jmp a => exact jumpIf_effect (by simp [Instr.regOperands]) (by simp) (by simp) h
  | jeq a => exact jumpIf_effect (by simp [Instr.regOperands]) (by simp) (by simp) h
  | jne a => exact jumpIf_effect (by simp [Instr.regOperands]) (by simp) (by simp) h

/-- A fault for a cause is what `exec` answers. -/
theorem FaultCause.exec {i : Instr} {s : State} {k : FaultKind} (c : FaultCause i s k) : exec i s = takeFault k s := by
  cases c with
  | register b mem bad =>
    cases i <;> simp only [Instr.regOperands, List.mem_cons, List.not_mem_nil, or_false] at mem <;>
      simp only [Machine.exec, execAdd, execSub, execMul, execDiv, execCmp, execAnd, execNot, execOr, execXor, execShl, execShr,
        execLdi, execPush, execPop, execPrn, execCall, execJmp, execJeq, execJne, aluBinary, jumpIf] <;>
      rcases mem with rfl | rfl <;>
      first
      | exact withReg_invalid bad s _
      | exact withRegs_invalid (.inl bad) s _
      | exact withRegs_invalid (.inr bad) s _
  | returnAddress a r ha high => rw [Machine.exec, execCall, withReg_valid ha, if_pos high]
  | divisor a b r q ha hb zero => rw [Machine.exec, execDiv, withRegs_valid ha hb, if_pos zero]
  | push a r ha zero => rw [Machine.exec, execPush, withReg_valid ha, pushThen_fault zero]
  | call a r ha low zero =>
    rw [Machine.exec, execCall, withReg_valid ha, if_neg (Nat.not_lt.mpr low), pushThen_fault zero]
  | pop a r ha top => rw [Machine.exec, execPop, withReg_valid ha, popThen_fault top]
  | ret top => rw [Machine.exec, execRet, popThen_fault top]

/-- The instructions of `binaryOps` are the ALU shape at their function. -/
theorem exec_binaryOps (a b : Byte) (s : State) : ∀ p ∈ binaryOps a b, exec p.1 s = aluBinary p.2 a b s := by
  simp [binaryOps, Machine.exec, execAdd, execSub, execMul, execAnd, execOr, execXor, execShl, execShr]

/-- Each effect is what `exec` answers: with `exec_effect`, the effects say exactly what an instruction does. -/
theorem Effect.exec {i : Instr} {s t : State} (e : Effect i s t) : exec i s = .next t := by
  cases e with
  | fault c => exact c.exec
  | binary a b r q op ha hb => exact (exec_binaryOps a b s _ op).trans (aluBinary_valid _ ha hb s)
  | div a b r q ha hb nonzero => rw [Machine.exec, execDiv, withRegs_valid ha hb, if_neg nonzero]
  | cmp a b r q ha hb => rw [Machine.exec, execCmp, withRegs_valid ha hb]
  | not a r ha => rw [Machine.exec, execNot, withReg_valid ha]
  | hlt => rfl
  | ldi a imm r ha => rw [Machine.exec, execLdi, withReg_valid ha]
  | push a r ha nonzero => rw [Machine.exec, execPush, withReg_valid ha, pushThen_ok nonzero]
  | pop a r ha below => rw [Machine.exec, execPop, withReg_valid ha, popThen_ok below]
  | prn a r ha => rw [Machine.exec, execPrn, withReg_valid ha]
  | call a r ha low nonzero =>
    rw [Machine.exec, execCall, withReg_valid ha, if_neg (Nat.not_lt.mpr low), pushThen_ok nonzero]
  | ret below => rw [Machine.exec, execRet, popThen_ok below]
  | jump a r ha taken =>
    rcases taken with rfl | ⟨rfl, he⟩ | ⟨rfl, he⟩
    · rw [Machine.exec, execJmp, jumpIf_valid true ha, if_pos rfl]
    · rw [Machine.exec, execJeq, jumpIf_valid _ ha, if_pos he]
    · rw [Machine.exec, execJne, jumpIf_valid _ ha, if_pos (by rw [he]; rfl)]
  | skip a r ha notTaken =>
    rcases notTaken with ⟨rfl, he⟩ | ⟨rfl, he⟩
    · rw [Machine.exec, execJeq, jumpIf_valid _ ha, if_neg (by rw [he]; exact Bool.false_ne_true)]
    · rw [Machine.exec, execJne, jumpIf_valid _ ha, if_neg (by rw [he]; exact Bool.false_ne_true)]

theorem binaryOps_total {i : Instr} {f : Byte → Byte → Byte} {a b : Byte} {s : State}
    (valid : ∀ b ∈ i.regOperands, ∃ r : Fin 8, b.toNat = r.val) (op : (i, f) ∈ binaryOps a b)
    (ops : i.regOperands = [a, b]) : ∃ t, exec i s = .next t := by
  obtain ⟨r, hr⟩ := valid a (by simp [ops])
  obtain ⟨q, hq⟩ := valid b (by simp [ops])
  exact ⟨_, (Effect.binary a b r q op hr hq).exec⟩

/-- Every instruction answers a next state from every state: no meaning stops. -/
theorem exec_total (i : Instr) (s : State) : ∃ t, exec i s = .next t := by
  by_cases bad : ∃ b ∈ i.regOperands, 7 < b.toNat
  · obtain ⟨b, mem, hb⟩ := bad
    exact ⟨_, (FaultCause.register b mem hb).exec⟩
  have valid : ∀ b ∈ i.regOperands, ∃ r : Fin 8, b.toNat = r.val := fun b mem =>
    ⟨⟨b.toNat, Nat.lt_succ_of_le (Nat.le_of_not_lt fun h => bad ⟨b, mem, h⟩)⟩, rfl⟩
  cases i with
  | add a b => exact binaryOps_total (f := fun u v => u + v) valid (by simp [binaryOps]) rfl
  | sub a b => exact binaryOps_total (f := fun u v => u - v) valid (by simp [binaryOps]) rfl
  | mul a b => exact binaryOps_total (f := fun u v => u * v) valid (by simp [binaryOps]) rfl
  | and a b => exact binaryOps_total (f := fun u v => u &&& v) valid (by simp [binaryOps]) rfl
  | or a b => exact binaryOps_total (f := fun u v => u ||| v) valid (by simp [binaryOps]) rfl
  | xor a b => exact binaryOps_total (f := fun u v => u ^^^ v) valid (by simp [binaryOps]) rfl
  | shl a b => exact binaryOps_total (f := fun u v => u <<< v.toNat) valid (by simp [binaryOps]) rfl
  | shr a b => exact binaryOps_total (f := fun u v => u >>> v.toNat) valid (by simp [binaryOps]) rfl
  | div a b =>
    obtain ⟨r, hr⟩ := valid a (by simp [Instr.regOperands])
    obtain ⟨q, hq⟩ := valid b (by simp [Instr.regOperands])
    by_cases h : s.reg q = 0
    · exact ⟨_, (FaultCause.divisor a b r q hr hq h).exec⟩
    · exact ⟨_, (Effect.div a b r q hr hq h).exec⟩
  | cmp a b =>
    obtain ⟨r, hr⟩ := valid a (by simp [Instr.regOperands])
    obtain ⟨q, hq⟩ := valid b (by simp [Instr.regOperands])
    exact ⟨_, (Effect.cmp a b r q hr hq).exec⟩
  | hlt => exact ⟨_, Effect.hlt.exec⟩
  | ret =>
    by_cases h : s.sp = 255
    · exact ⟨_, (FaultCause.ret h).exec⟩
    · exact ⟨_, (Effect.ret h).exec⟩
  | not a =>
    obtain ⟨r, hr⟩ := valid a (by simp [Instr.regOperands])
    exact ⟨_, (Effect.not a r hr).exec⟩
  | ldi a imm =>
    obtain ⟨r, hr⟩ := valid a (by simp [Instr.regOperands])
    exact ⟨_, (Effect.ldi a imm r hr).exec⟩
  | prn a =>
    obtain ⟨r, hr⟩ := valid a (by simp [Instr.regOperands])
    exact ⟨_, (Effect.prn a r hr).exec⟩
  | push a =>
    obtain ⟨r, hr⟩ := valid a (by simp [Instr.regOperands])
    by_cases h : s.sp = 0
    · exact ⟨_, (FaultCause.push a r hr h).exec⟩
    · exact ⟨_, (Effect.push a r hr h).exec⟩
  | pop a =>
    obtain ⟨r, hr⟩ := valid a (by simp [Instr.regOperands])
    by_cases h : s.sp = 255
    · exact ⟨_, (FaultCause.pop a r hr h).exec⟩
    · exact ⟨_, (Effect.pop a r hr h).exec⟩
  | call a =>
    obtain ⟨r, hr⟩ := valid a (by simp [Instr.regOperands])
    by_cases hp : 255 < s.pc.toNat + 2
    · exact ⟨_, (FaultCause.returnAddress a r hr hp).exec⟩
    by_cases h : s.sp = 0
    · exact ⟨_, (FaultCause.call a r hr (Nat.le_of_not_lt hp) h).exec⟩
    · exact ⟨_, (Effect.call a r hr (Nat.le_of_not_lt hp) h).exec⟩
  | jmp a =>
    obtain ⟨r, hr⟩ := valid a (by simp [Instr.regOperands])
    exact ⟨_, (Effect.jump a r hr (.inl rfl)).exec⟩
  | jeq a =>
    obtain ⟨r, hr⟩ := valid a (by simp [Instr.regOperands])
    cases h : s.fl.e
    · exact ⟨_, (Effect.skip a r hr (.inl ⟨rfl, h⟩)).exec⟩
    · exact ⟨_, (Effect.jump a r hr (.inr (.inl ⟨rfl, h⟩))).exec⟩
  | jne a =>
    obtain ⟨r, hr⟩ := valid a (by simp [Instr.regOperands])
    cases h : s.fl.e
    · exact ⟨_, (Effect.jump a r hr (.inr (.inr ⟨rfl, h⟩))).exec⟩
    · exact ⟨_, (Effect.skip a r hr (.inr ⟨rfl, h⟩)).exec⟩

end Sys2Proof.Machine
end

