-- ==== Sys2Proof/Laws/Frame.lean ====
section
/-! SUPPORT. The frame predicate: it composes, and each update of the state changes the one part it names. -/

namespace Sys2Proof.Machine

theorem Unchanged.refl (s : State) (ps : List Piece) : Unchanged s s ps := fun _ _ => rfl

theorem Unchanged.trans {s t u : State} {ps qs : List Piece} (h₁ : Unchanged s t ps) (h₂ : Unchanged t u qs) :
    Unchanged s u (ps ++ qs) := fun p hp =>
  (h₂ p fun h => hp (List.mem_append_right _ h)).trans (h₁ p fun h => hp (List.mem_append_left _ h))

theorem Unchanged.mono {s t : State} {ps qs : List Piece} (h : Unchanged s t ps) (hsub : ps ⊆ qs) : Unchanged s t qs :=
  fun p hp => h p fun hmem => hp (hsub hmem)

theorem unchanged_setReg (s : State) (i : Fin 8) (v : Byte) : Unchanged s (s.setReg i v) [.reg i] := by
  intro p hp
  cases p with
  | reg j =>
    have hne : i ≠ j := fun h => hp (by simp [h])
    exact congrArg Content.byte (State.reg_setReg_ne s hne v)
  | _ => rfl

theorem unchanged_writeMem (s : State) (a : Nat) (v : Byte) : Unchanged s (s.writeMem a v) [.cell a] := by
  intro p hp
  cases p with
  | cell b =>
    have hne : b ≠ a := fun h => hp (by simp [h])
    exact congrArg Content.byte (State.readMem_writeMem_ne s hne v)
  | _ => rfl

theorem unchanged_setPc (s : State) (v : PcWord) : Unchanged s (s.setPc v) [.pc] := by
  intro p hp
  cases p <;> first | rfl | exact absurd (List.mem_singleton.mpr rfl) hp

theorem unchanged_advance (s : State) (n : Nat) : Unchanged s (s.advance n) [.pc] := unchanged_setPc s _

theorem unchanged_setSp (s : State) (v : Byte) : Unchanged s (s.setSp v) [.sp] := by
  intro p hp
  cases p <;> first | rfl | exact absurd (List.mem_singleton.mpr rfl) hp

theorem unchanged_setFlags (s : State) (f : Flags) : Unchanged s (s.setFlags f) [.flagL, .flagG, .flagE] := by
  intro p hp
  cases p <;> first | rfl | exact absurd (by simp) hp

theorem unchanged_emit (s : State) (v : Byte) : Unchanged s (s.emit v) [.out] := by
  intro p hp
  cases p <;> first | rfl | exact absurd (List.mem_singleton.mpr rfl) hp

theorem unchanged_setRun (s : State) (r : RunState) : Unchanged s (s.setRun r) [.run] := by
  intro p hp
  cases p <;> first | rfl | exact absurd (List.mem_singleton.mpr rfl) hp

end Sys2Proof.Machine
end

