-- ==== Sys2Proof/Laws/PerInstr.lean ====
section
/-! SUPPORT. Facts about every instruction as syntax, one lemma per constructor. -/

namespace Sys2Proof.Laws.RowFields

/-- 30_encoding.md R90 and R83: the fields of the opcode byte agree with the instruction it stands for (the operand count
with its operands, `is_alu` with its class, `sets_pc` with who writes `pc`), and the encoding is as long as its format says. -/
def Statement (i : Instr) : Prop :=
  operandCount i.opcode = i.operands.length ∧ (opcodeFields i.opcode).isAlu = i.isAlu ∧
    (opcodeFields i.opcode).setsPc = i.setsPc ∧ (encode i).length = i.format.length

/-- The fields of one opcode byte, as numbers that can be computed. -/
theorem fields_of_byte {ir : Byte} {n : Nat} {alu own : Bool}
    (h : operandCount ir = n ∧ (opcodeFields ir).isAlu = alu ∧ (opcodeFields ir).setsPc = own) {i : Instr} (hi : i.opcode = ir)
    (hn : i.operands.length = n) (ha : i.isAlu = alu) (ho : i.setsPc = own) (hf : (encode i).length = i.format.length) :
    Statement i := by
  subst hi
  exact ⟨h.1.trans hn.symm, h.2.1.trans ha.symm, h.2.2.trans ho.symm, hf⟩

theorem add (a b : Byte) : Statement (.add a b) := fields_of_byte (ir := 0xA0) (n := 2) (alu := true) (own := false) (by decide) rfl rfl rfl rfl rfl
theorem sub (a b : Byte) : Statement (.sub a b) := fields_of_byte (ir := 0xA1) (n := 2) (alu := true) (own := false) (by decide) rfl rfl rfl rfl rfl
theorem mul (a b : Byte) : Statement (.mul a b) := fields_of_byte (ir := 0xA2) (n := 2) (alu := true) (own := false) (by decide) rfl rfl rfl rfl rfl
theorem div (a b : Byte) : Statement (.div a b) := fields_of_byte (ir := 0xA3) (n := 2) (alu := true) (own := false) (by decide) rfl rfl rfl rfl rfl
theorem cmp (a b : Byte) : Statement (.cmp a b) := fields_of_byte (ir := 0xA7) (n := 2) (alu := true) (own := false) (by decide) rfl rfl rfl rfl rfl
theorem and (a b : Byte) : Statement (.and a b) := fields_of_byte (ir := 0xA8) (n := 2) (alu := true) (own := false) (by decide) rfl rfl rfl rfl rfl
theorem not (a : Byte) : Statement (.not a) := fields_of_byte (ir := 0x69) (n := 1) (alu := true) (own := false) (by decide) rfl rfl rfl rfl rfl
theorem or (a b : Byte) : Statement (.or a b) := fields_of_byte (ir := 0xAA) (n := 2) (alu := true) (own := false) (by decide) rfl rfl rfl rfl rfl
theorem xor (a b : Byte) : Statement (.xor a b) := fields_of_byte (ir := 0xAB) (n := 2) (alu := true) (own := false) (by decide) rfl rfl rfl rfl rfl
theorem shl (a b : Byte) : Statement (.shl a b) := fields_of_byte (ir := 0xAC) (n := 2) (alu := true) (own := false) (by decide) rfl rfl rfl rfl rfl
theorem shr (a b : Byte) : Statement (.shr a b) := fields_of_byte (ir := 0xAD) (n := 2) (alu := true) (own := false) (by decide) rfl rfl rfl rfl rfl
theorem hlt : Statement (.hlt) := fields_of_byte (ir := 0x01) (n := 0) (alu := false) (own := false) (by decide) rfl rfl rfl rfl rfl
theorem ldi (a imm : Byte) : Statement (.ldi a imm) := fields_of_byte (ir := 0x82) (n := 2) (alu := false) (own := false) (by decide) rfl rfl rfl rfl rfl
theorem push (a : Byte) : Statement (.push a) := fields_of_byte (ir := 0x45) (n := 1) (alu := false) (own := false) (by decide) rfl rfl rfl rfl rfl
theorem pop (a : Byte) : Statement (.pop a) := fields_of_byte (ir := 0x46) (n := 1) (alu := false) (own := false) (by decide) rfl rfl rfl rfl rfl
theorem prn (a : Byte) : Statement (.prn a) := fields_of_byte (ir := 0x47) (n := 1) (alu := false) (own := false) (by decide) rfl rfl rfl rfl rfl
theorem call (a : Byte) : Statement (.call a) := fields_of_byte (ir := 0x50) (n := 1) (alu := false) (own := true) (by decide) rfl rfl rfl rfl rfl
theorem ret : Statement (.ret) := fields_of_byte (ir := 0x11) (n := 0) (alu := false) (own := true) (by decide) rfl rfl rfl rfl rfl
theorem jmp (a : Byte) : Statement (.jmp a) := fields_of_byte (ir := 0x54) (n := 1) (alu := false) (own := true) (by decide) rfl rfl rfl rfl rfl
theorem jeq (a : Byte) : Statement (.jeq a) := fields_of_byte (ir := 0x55) (n := 1) (alu := false) (own := true) (by decide) rfl rfl rfl rfl rfl
theorem jne (a : Byte) : Statement (.jne a) := fields_of_byte (ir := 0x56) (n := 1) (alu := false) (own := true) (by decide) rfl rfl rfl rfl rfl

/-- Every instruction, from its constructor's lemma. -/
theorem all (i : Instr) : Statement i := by
  cases i with
  | add a b => exact add a b
  | sub a b => exact sub a b
  | mul a b => exact mul a b
  | div a b => exact div a b
  | cmp a b => exact cmp a b
  | and a b => exact and a b
  | not a => exact not a
  | or a b => exact or a b
  | xor a b => exact xor a b
  | shl a b => exact shl a b
  | shr a b => exact shr a b
  | hlt => exact hlt
  | ldi a imm => exact ldi a imm
  | push a => exact push a
  | pop a => exact pop a
  | prn a => exact prn a
  | call a => exact call a
  | ret => exact ret
  | jmp a => exact jmp a
  | jeq a => exact jeq a
  | jne a => exact jne a

end Sys2Proof.Laws.RowFields
end

