-- ==== Sys2Proof/Laws/Session.lean ====
section
/-! SUPPORT. What the host's side of the interface can do: when a load is accepted and what it leaves, and what a step records. -/

namespace Sys2Proof.Machine

/-- A load is accepted exactly before the first step with at most 256 words, and then it only stores the words. -/
theorem Session.load_next {h g : Session} {words : List Byte} :
    h.load words = .next g ↔
      h.begun = false ∧ words.length ≤ memSize ∧ g = { h with core := h.core.placeProgram words } := by
  unfold Session.load
  split
  · next hb => simp [hb]
  · next hb =>
    split
    · next hl => simp [Nat.not_le.mpr hl]
    · next hl => simp [hb, Nat.le_of_not_lt hl, eq_comm]

theorem Session.load_begun {h : Session} (hb : h.begun = true) (words : List Byte) :
    h.load words = .refused .loadAfterStart := if_pos hb

theorem Session.boot_too_long (cfg : Config) (memInit : Memory) {words : List Byte} (hl : memSize < words.length) :
    Session.boot cfg memInit words = .refused .programTooLong := if_pos hl

/-- A step of a session is the step of its core, and it is recorded. -/
theorem Session.step_next {h g : Session} :
    h.step = .next g ↔ Machine.step h.core = .next g.core ∧ g.begun = true := by
  obtain ⟨c, b⟩ := g
  cases hs : Machine.step h.core <;> cases b <;> simp [Session.step, hs]

end Sys2Proof.Machine
end

