-- ==== Sys2Proof/Tests/Slice0.lean ====
section
/-! SUPPORT. The model's own tests: the well-formedness checks, a word written out for every constructor, one step of every
instruction (expected values from spec/95_test_vectors.md), and for every statement a concrete input that meets its hypotheses. -/

namespace Sys2Proof.Tests

open Sys2Proof Sys2Proof.Machine

/-! ## Helpers -/

/-- The outcome is a next state with the property. -/
def holds {σ : Type} (r : Host.Outcome σ Fault Refusal) (p : σ → Bool) : Bool :=
  match r with
  | .next t => p t
  | .fault _ => false
  | .refused _ => false

theorem exists_of_holds {σ : Type} {r : Host.Outcome σ Fault Refusal} {p : σ → Bool} (h : holds r p = true) : ∃ t, r = .next t ∧ p t = true := by
  cases r with
  | next t => exact ⟨t, rfl, h⟩
  | fault e => cases h
  | refused e => cases h

/-- The reset state with bytes placed at `p`, and `pc` there. -/
def code (p : Nat) (bytes : List Byte) : State :=
  { State.reset with mem := Memory.writeList [] p bytes, pc := BitVec.ofNat 9 p }

/-- The same with `x[0]` and `x[1]` given. -/
def code01 (p : Nat) (bytes : List Byte) (u v : Byte) : State := ((code p bytes).setReg 0 u).setReg 1 v

/-- The same with `sp` given. -/
def codeSp (p : Nat) (bytes : List Byte) (sp : Byte) : State := (code p bytes).setSp sp

/-- The same with `HAS_DIV`, and `x[0]` and `x[1]` given. -/
def codeDiv (bytes : List Byte) (u v : Byte) : State := { code01 0 bytes u v with cfg := { hasDiv := true } }

/-- V-CT-4: a jump at 20 over `x[2]` = 40 with `E` given. -/
def codeJump (opcode : Byte) (e : Bool) : State :=
  ((code 20 [opcode, 2]).setReg 2 40).setFlags { l := false, g := false, e := e }

/-! ## Well-formedness refuses -/

theorem test_wf_accepts : (Instr.add 7 0).wf = true ∧ (Instr.ldi 7 255).wf = true ∧ Instr.hlt.wf = true := by decide

theorem test_wf_refuses_first_of_two : (Instr.add 8 0).wf = false ∧ (Instr.cmp 255 0).wf = false := by decide

theorem test_wf_refuses_second_of_two : (Instr.add 0 8).wf = false ∧ (Instr.shr 0 200).wf = false := by decide

theorem test_wf_refuses_single : (Instr.not 8).wf = false ∧ (Instr.push 8).wf = false ∧ (Instr.jne 8).wf = false := by decide

theorem test_wf_refuses_register_of_ldi : (Instr.ldi 8 0).wf = false := by decide

/-! ## Decoding: every constructor's word, written out from 30_encoding.md sections 1 and 3 (V-DEC-3 where it has a row) -/

theorem test_decode_add : decode true [0b10100000, 0b00000001, 0b00000010] = .ok (.add 1 2, []) := rfl
theorem test_decode_sub : decode true [0b10100001, 0b00000001, 0b00000010] = .ok (.sub 1 2, []) := rfl
theorem test_decode_mul : decode true [0b10100010, 0b00000001, 0b00000010] = .ok (.mul 1 2, []) := rfl
theorem test_decode_div : decode true [0b10100011, 0b00000001, 0b00000010] = .ok (.div 1 2, []) := rfl
theorem test_decode_cmp : decode true [0b10100111, 0b00000001, 0b00000010] = .ok (.cmp 1 2, []) := rfl
theorem test_decode_and : decode true [0b10101000, 0b00000001, 0b00000010] = .ok (.and 1 2, []) := rfl
theorem test_decode_not : decode true [0b01101001, 0b00000101] = .ok (.not 5, []) := rfl
theorem test_decode_or : decode true [0b10101010, 0b00000001, 0b00000010] = .ok (.or 1 2, []) := rfl
theorem test_decode_xor : decode true [0b10101011, 0b00000001, 0b00000010] = .ok (.xor 1 2, []) := rfl
theorem test_decode_shl : decode true [0b10101100, 0b00000001, 0b00000010] = .ok (.shl 1 2, []) := rfl
theorem test_decode_shr : decode true [0b10101101, 0b00000001, 0b00000010] = .ok (.shr 1 2, []) := rfl
theorem test_decode_hlt : decode true [0b00000001] = .ok (.hlt, []) := rfl
theorem test_decode_ldi : decode true [0b10000010, 0b00000001, 0b10000000] = .ok (.ldi 1 128, []) := rfl
theorem test_decode_push : decode true [0b01000101, 0b00000101] = .ok (.push 5, []) := rfl
theorem test_decode_pop : decode true [0b01000110, 0b00000101] = .ok (.pop 5, []) := rfl
theorem test_decode_prn : decode true [0b01000111, 0b00000101] = .ok (.prn 5, []) := rfl
theorem test_decode_call : decode true [0b01010000, 0b00000101] = .ok (.call 5, []) := rfl
theorem test_decode_ret : decode true [0b00010001] = .ok (.ret, []) := rfl
theorem test_decode_jmp : decode true [0b01010100, 0b00000101] = .ok (.jmp 5, []) := rfl
theorem test_decode_jeq : decode true [0b01010101, 0b00000101] = .ok (.jeq 5, []) := rfl
theorem test_decode_jne : decode true [0b01010110, 0b00000101] = .ok (.jne 5, []) := rfl

/-- Without `HAS_DIV` the byte A3 is unknown (R89); a register byte above 7 is kept whole (R84). -/
theorem test_decode_edges :
    decode false [0xA3, 0, 1] = .error .unknownOpcode ∧ decode false [0x69, 8] = .ok (.not 8, []) := ⟨rfl, rfl⟩

/-- V-DEC-1, and the count 3 (R91). -/
theorem test_decode_refuses :
    ([0x00, 0x02, 0x10, 0x20, 0x41, 0x65, 0x83] : List Byte).all
      (fun b => match decode true [b, 0, 0] with
        | .error .unknownOpcode => true
        | _ => false) = true ∧ decode true [0xFF, 0, 0] = .error .operandCount3 := by decide

/-- Bit 0 of the table's word is the least significant bit of the first byte; the operands follow upwards. -/
theorem test_table_word :
    decodeTableWord 24 0x0201A0 = some (.add 1 2) ∧ decodeTableWord 8 0xA3 = some (.div 0 0) ∧
    decodeTableWord 16 0x0545 = some (.push 5) ∧ decodeTableWord 8 0x11 = some .ret ∧
    decodeTableWord 24 0x000000 = none := by decide

/-- The placed word is what the first step after reset runs (log 5): `LDI R1, 5`. -/
theorem test_withFetchWord :
    holds (step (State.reset.withFetchWord 24 0x050182)) (fun t => decide (t.reg 1 = 5 ∧ t.pc = 3)) = true := by decide

/-- Also for DIV's row, which the reset machine lacks: 0 / 0 is its division fault, not an unknown byte. -/
theorem test_withFetchWord_div :
    holds (step (State.reset.withFetchWord 8 0xA3)) (fun t => decide (t.reg 0 = 0 ∧ t.run = .faulted .divisionByZero)) = true := by
  decide

/-! ## One step of every instruction (95_test_vectors.md Part 2) -/

/-- V-ALU-ADD row 1, the source's example. -/
theorem test_add_wraps :
    holds (step (code01 0 [0xA0, 0, 1] 250 10)) (fun t => decide (t.reg 0 = 4 ∧ t.reg 1 = 10 ∧ t.pc = 3)) = true := by decide

/-- V-ALU-F row 2. -/
theorem test_add_second_index :
    holds (step (code 0 [0xA0, 0, 8])) (fun t => decide (t.run = .faulted .invalidOperand ∧ t.pc = 0)) = true := by decide

/-- V-ALU-SUB row 3. -/
theorem test_sub_borrows : holds (step (code01 0 [0xA1, 0, 1] 5 10)) (fun t => decide (t.reg 0 = 251 ∧ t.pc = 3)) = true := by
  decide

/-- V-ALU-MUL row 3. -/
theorem test_mul_low_byte : holds (step (code01 0 [0xA2, 0, 1] 255 255)) (fun t => decide (t.reg 0 = 1)) = true := by decide

/-- V-ALU-DIV row 1. -/
theorem test_div_floor : holds (step (codeDiv [0xA3, 0, 1] 200 7)) (fun t => decide (t.reg 0 = 28 ∧ t.pc = 3)) = true := by
  decide

/-- V-ALU-DIV row 5. -/
theorem test_div_by_zero :
    holds (step (codeDiv [0xA3, 0, 1] 9 0))
      (fun t => decide (t.run = .faulted .divisionByZero ∧ t.reg 0 = 9 ∧ t.pc = 0)) = true := by decide

/-- V-ALU-CMP row 4: unsigned. -/
theorem test_cmp_unsigned :
    holds (step (code01 0 [0xA7, 0, 1] 200 100)) (fun t => decide (t.fl = ⟨false, true, false⟩ ∧ t.reg 0 = 200)) = true := by
  decide

/-- `CMP R4,R4` from `FL` = (1, 0, 0): the old `L` is cleared. -/
theorem test_cmp_clears :
    holds (step ((code 0 [0xA7, 4, 4]).setFlags ⟨true, false, false⟩)) (fun t => decide (t.fl = ⟨false, false, true⟩)) = true := by
  decide

/-- V-ALU-AND row 1. -/
theorem test_and : holds (step (code01 0 [0xA8, 0, 1] 0xCA 0xA6)) (fun t => decide (t.reg 0 = 0x82)) = true := by decide

/-- V-ALU-NOT row 3. -/
theorem test_not : holds (step (code01 0 [0x69, 0] 0xCA 0)) (fun t => decide (t.reg 0 = 0x35 ∧ t.pc = 2)) = true := by decide

/-- V-ALU-F row 4: the index is not masked to three bits. -/
theorem test_not_index : holds (step (code 0 [0x69, 8])) (fun t => decide (t.run = .faulted .invalidOperand)) = true := by
  decide

/-- V-ALU-OR row 1. -/
theorem test_or : holds (step (code01 0 [0xAA, 0, 1] 0xCA 0xA6)) (fun t => decide (t.reg 0 = 0xEE)) = true := by decide

/-- V-ALU-XOR row 1. -/
theorem test_xor : holds (step (code01 0 [0xAB, 0, 1] 0xCA 0xA6)) (fun t => decide (t.reg 0 = 0x6C)) = true := by decide

/-- V-ALU-SHL row 4: a shift by the width. -/
theorem test_shl_width : holds (step (code01 0 [0xAC, 0, 1] 0xFF 8)) (fun t => decide (t.reg 0 = 0)) = true := by decide

/-- V-ALU-SAME, row 3: `SHL R2,R2` shifts 3 by 3. -/
theorem test_shl_same : holds (step ((code 0 [0xAC, 2, 2]).setReg 2 3)) (fun t => decide (t.reg 2 = 24)) = true := by decide

/-- V-ALU-SHR row 2: zero enters at the top. -/
theorem test_shr_logical : holds (step (code01 0 [0xAD, 0, 1] 0x81 1)) (fun t => decide (t.reg 0 = 0x40)) = true := by decide

/-- V-ALU-SHR row 5. -/
theorem test_shr_largest : holds (step (code01 0 [0xAD, 0, 1] 0xFF 255)) (fun t => decide (t.reg 0 = 0)) = true := by decide

/-- V-ST-2: the lowest cell can be pushed to. -/
theorem test_push_lowest :
    holds (step ((codeSp 10 [0x45, 0] 1).setReg 0 5)) (fun t => decide (t.readMem 0 = 5 ∧ t.sp = 0 ∧ t.pc = 12)) = true := by
  decide

/-- V-ST-3. -/
theorem test_push_underflow :
    holds (step (codeSp 0 [0x45, 0] 0)) (fun t => decide (t.run = .faulted .stackUnderflow ∧ t.sp = 0 ∧ t.pc = 0)) = true := by
  decide

/-- V-ST-4b. -/
theorem test_pop_high :
    holds (step ((codeSp 0 [0x46, 0] 254).writeMem 254 9)) (fun t => decide (t.reg 0 = 9 ∧ t.sp = 255 ∧ t.pc = 2)) = true := by
  decide

/-- V-ST-4c. -/
theorem test_pop_overflow :
    holds (step (codeSp 0 [0x46, 0] 255)) (fun t => decide (t.run = .faulted .stackOverflow ∧ t.sp = 255)) = true := by decide

/-- V-ST-6b: the largest return address. -/
theorem test_call_at_253 :
    holds (step (code 253 [0x50, 1])) (fun t => decide (t.readMem 0xF3 = 255 ∧ t.sp = 0xF3 ∧ t.pc = 0)) = true := by decide

/-- V-ST-6c. -/
theorem test_call_at_254 :
    holds (step (code 254 [0x50, 1])) (fun t => decide (t.run = .faulted .invalidOperand ∧ t.pc = 254 ∧ t.sp = 0xF4)) = true := by
  decide

/-- V-ST-7. -/
theorem test_ret :
    holds (step ((code 0 [0x11]).writeMem 0xF4 0x30)) (fun t => decide (t.pc = 48 ∧ t.sp = 0xF5)) = true := by decide

/-- V-ST-7c. -/
theorem test_ret_overflow :
    holds (step (codeSp 0 [0x11] 255)) (fun t => decide (t.run = .faulted .stackOverflow ∧ t.pc = 0)) = true := by decide

/-- V-CT-6b. -/
theorem test_hlt_at_255 : holds (step (code 255 [0x01])) (fun t => decide (t.run = .halted ∧ t.pc = 256)) = true := by decide

/-- V-CT-2c: the second operand is never a register index. -/
theorem test_ldi_immediate : holds (step (code 0 [0x82, 0, 8])) (fun t => decide (t.reg 0 = 8 ∧ t.pc = 3)) = true := by decide

/-- V-CT-2b. -/
theorem test_ldi_index : holds (step (code 0 [0x82, 8, 1])) (fun t => decide (t.run = .faulted .invalidOperand)) = true := by
  decide

/-- V-CT-5, and the rendered line "77". -/
theorem test_prn :
    holds (step (code01 0 [0x47, 0] 77 0))
      (fun t => decide (t.out = [77] ∧ t.pc = 2 ∧ t.outText = ['7', '7', '\n'])) = true := by decide

/-- V-LOOP-1, first step. -/
theorem test_prn_at_254 :
    holds (step (code01 254 [0x47, 0] 77 0)) (fun t => decide (t.out = [77] ∧ t.pc = 256 ∧ t.run = .running)) = true := by
  decide

/-- V-CT-3d. -/
theorem test_jmp : holds (step (code 0 [0x54, 7])) (fun t => decide (t.pc = 244)) = true := by decide

/-- V-CT-4, the two rows of `E`. -/
theorem test_jeq :
    holds (step (codeJump 0x55 true)) (fun t => decide (t.pc = 40)) = true ∧
    holds (step (codeJump 0x55 false)) (fun t => decide (t.pc = 22)) = true := by decide

/-- V-CT-4. -/
theorem test_jne :
    holds (step (codeJump 0x56 true)) (fun t => decide (t.pc = 22)) = true ∧
    holds (step (codeJump 0x56 false)) (fun t => decide (t.pc = 40)) = true := by decide

/-- V-LOOP-4 to V-LOOP-8: what the fetch refuses at the top of memory. -/
theorem test_fetch_faults :
    holds (step (code 256 [])) (fun t => decide (t.run = .faulted .invalidOperand)) = true ∧
    holds (step (code 255 [0x47])) (fun t => decide (t.run = .faulted .invalidOperand)) = true ∧
    holds (step (code 254 [0xB5, 0])) (fun t => decide (t.run = .faulted .invalidOperand)) = true ∧
    holds (step (code 253 [0xB5, 0, 0])) (fun t => decide (t.run = .faulted .unsupportedOperation)) = true ∧
    holds (step (code 255 [0xC0])) (fun t => decide (t.run = .faulted .unsupportedOperation)) = true := by decide

/-- 00_scope.md R14: `JMP R0` at 0 (V-CT-3b) steps to the very same core state, and a load is refused after it all the same. -/
theorem test_load_after_jump_to_itself :
    holds (Session.step { core := code 0 [0x54, 0], begun := false })
      (fun g => decide (g.core = code 0 [0x54, 0]) && match g.load [0x01] with
        | .refused .loadAfterStart => true
        | _ => false) = true := by decide

/-! ## Every statement with hypotheses has inputs that meet them, one for each clause -/

theorem witness_ResetPutsEveryPieceAtItsValue : (6 : Fin 8).val ≤ 6 ∧ ¬ (7 : Fin 8).val ≤ 6 := by decide

theorem witness_LoadPlacesTheProgramOrIsRefused :
    (List.replicate 256 (1 : Byte)).length ≤ 256 ∧ 256 < (List.replicate 257 (1 : Byte)).length ∧
    holds ((Session.reset ⟨false⟩ []).load [0x01]) (fun _ => true) = true ∧
    (Session.reset ⟨false⟩ []).core.run = .running ∧ holds (Session.reset ⟨false⟩ []).step (fun _ => true) = true :=
  ⟨(List.length_replicate ..).le, (List.length_replicate ..).symm ▸ Nat.lt_succ_self 256, by decide, rfl, by decide⟩

theorem witness_PlacedWordIsTheNextStep : decode true (wordBytes 24 0x0100A3) = .ok (.div 0 1, []) := rfl

theorem witness_StepExistsExactlyWhileRunning : State.reset.run = .running := rfl

theorem witness_TerminalStatesAreFrozen :
    (State.reset.setRun .halted).run ≠ .running ∧ (State.reset.setRun (.faulted .stackOverflow)).run ≠ .running := by decide

theorem witness_ParameterNeverChanges : ∃ t, step (code 0 [0x01]) = .next t :=
  have ⟨t, h, _⟩ := exists_of_holds (r := step (code 0 [0x01])) (p := fun _ => true) (by decide)
  ⟨t, h⟩

theorem witness_DecodeOfEncodeIsTheInstruction : ∀ a b, Instr.hlt ≠ .div a b := by simp

theorem witness_DecodedBytesAreTheEncoding : decode false [0x01, 0x02] = .ok (.hlt, [0x02]) := rfl

theorem witness_UnknownOpcodeBytesFault :
    (let s := code 253 [0xB5, 0, 0]
     s.run = .running ∧ s.pc.toNat ≤ 255 ∧ s.readMem s.pc.toNat ∉ opcodeRows s.cfg.hasDiv ∧
       s.pc.toNat + (s.readMem s.pc.toNat).toNat / 64 ≤ 255) ∧
    (let s := code 255 [0xC0]
     s.run = .running ∧ s.pc.toNat ≤ 255 ∧ s.readMem s.pc.toNat ∉ opcodeRows s.cfg.hasDiv ∧
       (s.readMem s.pc.toNat).toNat / 64 = 3) ∧
    (let s := code 254 [0xB5, 0]
     s.run = .running ∧ s.pc.toNat ≤ 255 ∧ s.readMem s.pc.toNat ∉ opcodeRows s.cfg.hasDiv ∧
       (s.readMem s.pc.toNat).toNat / 64 ≠ 3 ∧ 255 < s.pc.toNat + (s.readMem s.pc.toNat).toNat / 64) ∧
    (0x01 : Byte) ∈ opcodeRows false ∧ (0xA3 : Byte) ∈ opcodeRows true := by decide

theorem witness_StepIsTheExecutionLoop : (code 256 []).run = .running ∧ (code 255 [0x01]).run = .running := by decide

theorem witness_StepRunsTheDecodedInstruction :
    (let s := code 254 [0x47, 0]
     s.run = .running ∧ (∀ a b, Instr.prn 0 = .div a b → s.cfg.hasDiv = true) ∧ s.pc.toNat + (encode (.prn 0)).length ≤ 256 ∧
       s.readMem s.pc.toNat = 0x47 ∧ s.readMem (s.pc.toNat + 1) = 0 ∧ encode (.prn 0) = [0x47, 0] ∧
       decode s.cfg.hasDiv s.fetchBytes = .ok (.prn 0, [])) ∧
    (codeDiv [0xA3, 0, 1] 9 3).cfg.hasDiv = true :=
  ⟨⟨by decide, by simp, by decide, by decide, by decide, by decide, rfl⟩, by decide⟩

/-- A step that faults, one that advances, and each of the jumps, with the instruction it dispatches to. -/
theorem witness_PcAdvancesOrGoesToTheTarget :
    (code 0 [0x69, 8]).current = some (.not 8) ∧
    holds (step (code 0 [0x69, 8])) (fun t => decide (t.run = .faulted .invalidOperand)) = true ∧
    (code 254 [0x47, 7]).current = some (.prn 7) ∧
    holds (step (code 254 [0x47, 7])) (fun t => decide (t.run = .running)) = true ∧
    (code 0 [0x54, 7]).current = some (.jmp 7) ∧ holds (step (code 0 [0x54, 7])) (fun t => decide (t.run = .running)) = true ∧
    (code 253 [0x50, 1]).current = some (.call 1) ∧
    holds (step (code 253 [0x50, 1])) (fun t => decide (t.run = .running)) = true ∧
    (codeJump 0x55 true).current = some (.jeq 2) ∧ (codeJump 0x55 true).fl.e = true ∧
    holds (step (codeJump 0x55 true)) (fun t => decide (t.run = .running)) = true ∧
    holds (step (codeJump 0x55 false)) (fun t => decide (t.run = .running)) = true ∧
    (codeJump 0x56 false).current = some (.jne 2) ∧ (codeJump 0x56 false).fl.e = false ∧
    holds (step (codeJump 0x56 false)) (fun t => decide (t.run = .running)) = true ∧
    holds (step (codeJump 0x56 true)) (fun t => decide (t.run = .running)) = true ∧
    (code 0 [0x11]).current = some .ret ∧ holds (step (code 0 [0x11])) (fun t => decide (t.run = .running)) = true := by decide

theorem witness_ControlTransfersOnlyByTheFiveJumps :
    ∃ t, step (code 0 [0x54, 7]) = .next t ∧ (code 0 [0x54, 7]).current = some (.jmp 7) ∧ (∀ k, t.run ≠ .faulted k) ∧
      t.pc.toNat ≠ (code 0 [0x54, 7]).pc.toNat + (encode (.jmp 7)).length :=
  have ⟨t, h, hp⟩ := exists_of_holds (r := step (code 0 [0x54, 7]))
    (p := fun t => decide (t.run = .running ∧ t.pc.toNat ≠ (code 0 [0x54, 7]).pc.toNat + (encode (.jmp 7)).length)) (by decide)
  have hq := of_decide_eq_true hp
  ⟨t, h, by decide, by simp [hq.1], hq.2⟩

theorem witness_FaultsChangeOnlyTheRunState :
    holds (step (code 0 [0x00])) (fun t => decide (t.run = .faulted .unsupportedOperation)) = true ∧
    (code 0 []).run = .running ∧
    holds (exec (.not 8) (code 0 [])) (fun t => decide (t.run = .faulted .invalidOperand)) = true := by decide

theorem witness_UnsupportedOperationIsRaisedInExactlyTwoCases :
    holds (step (code 0 [0x00])) (fun t => decide (t.run = .faulted .unsupportedOperation)) = true ∧
    (255 : PcWord).toNat ≤ 255 ∧ (0xC0 : Byte) ∉ opcodeRows true ∧ (0xC0 : Byte).toNat / 64 = 3 ∧
    (0xB5 : Byte) ∉ opcodeRows true ∧ (253 : PcWord).toNat + (0xB5 : Byte).toNat / 64 ≤ 255 := by decide

theorem witness_InvalidOperandIsRaisedInExactlyFourCases :
    holds (step (code 256 [])) (fun t => decide (t.run = .faulted .invalidOperand)) = true ∧
    holds (step (code 255 [0x47])) (fun t => decide (t.run = .faulted .invalidOperand)) = true ∧
    holds (step (code 0 [0x69, 8])) (fun t => decide (t.run = .faulted .invalidOperand)) = true ∧
    holds (step (code 254 [0x50, 1])) (fun t => decide (t.run = .faulted .invalidOperand)) = true := by decide

theorem witness_OperationFaultsAreRaisedExactlyWhenDue :
    holds (step (codeDiv [0xA3, 0, 1] 9 0)) (fun t => decide (t.run = .faulted .divisionByZero)) = true ∧
    holds (step (codeSp 0 [0x45, 7] 0)) (fun t => decide (t.run = .faulted .stackUnderflow)) = true ∧
    holds (step (codeSp 253 [0x50, 7] 0)) (fun t => decide (t.run = .faulted .stackUnderflow)) = true ∧
    holds (step (codeSp 0 [0x11] 255)) (fun t => decide (t.run = .faulted .stackOverflow)) = true ∧
    (code01 0 [0xA3, 0, 1] 9 0).cfg.hasDiv = false ∧
    holds (step (code01 0 [0xA3, 0, 1] 9 0)) (fun t => decide (t.run = .faulted .unsupportedOperation)) = true := by decide

theorem witness_RegisterIndexAboveSevenFaults :
    (∃ b ∈ (Instr.add 0 8).regOperands, 7 < b.toNat) ∧ ∃ b ∈ (Instr.ldi 8 0).regOperands, 7 < b.toNat :=
  ⟨⟨8, by decide, by decide⟩, ⟨8, by decide, by decide⟩⟩

theorem witness_HaltedIsEnteredOnlyByHlt :
    holds (step (code 0 [0x01])) (fun t => decide (t.run = .halted)) = true ∧
    holds (step (code 0 [0x00])) (fun t => decide (t.run = .faulted .unsupportedOperation)) = true := by decide

theorem witness_FlagsAreWrittenByCmpAndReadByJumpsAlone :
    holds (exec (.cmp 7 0) (code 0 [])) (fun t => decide (t.fl ≠ (code 0 []).fl)) = true ∧
    holds (step (code 0 [0xA7, 7, 0])) (fun t => decide (t.fl ≠ (code 0 []).fl)) = true ∧
    (Instr.add 0 1).readsFlag = false ∧ holds (exec (.add 0 1) (code 0 [])) (fun _ => true) = true ∧
    (Flags.mk true false true).e = (codeJump 0x55 true).fl.e ∧
    holds (exec (.jeq 2) (codeJump 0x55 true)) (fun _ => true) = true := by decide

theorem witness_FlagsAreClearThenOneHot :
    (7 : Byte).toNat ≤ 7 ∧ holds (exec (.cmp 7 7) (code 0 [])) (fun _ => true) = true ∧
    (∀ a b, (codeJump 0x55 true).current ≠ some (.cmp a b)) ∧ holds (step (codeJump 0x55 true)) (fun _ => true) = true ∧
    (codeJump 0x55 true).fl.oneHot :=
  ⟨by decide, by decide, by
    rw [show (codeJump 0x55 true).current = some (.jeq 2) by decide]
    simp, by decide, .inr (.inr rfl)⟩

theorem witness_StackPointerMovesOnlyByTheStackInstructions :
    holds (exec (.push 0) (code 0 [])) (fun t => decide (t.sp ≠ (code 0 []).sp)) = true ∧
    holds (exec .ret (code 0 [])) (fun t => decide (t.sp ≠ (code 0 []).sp)) = true ∧
    Instr.hlt.usesStack = false ∧ holds (exec .hlt (code 0 [])) (fun _ => true) = true := by decide

theorem witness_MemoryIsStoredToOnlyByPushAndCall :
    holds (step (code 0 [0x45, 7])) (fun t => decide (t.readMem 0xF3 ≠ (code 0 [0x45, 7]).readMem 0xF3)) = true := by decide

theorem witness_OutputGrowsOnlyByPrnAndIsNeverRead :
    holds (step (code 0 [0x47, 7])) (fun t => decide (t.out ≠ (code 0 []).out)) = true ∧
    holds (step (code 0 [0x00])) (fun t => decide (t.out = [])) = true := by decide

theorem witness_RegistersAreTouchedOnlyAsNamed :
    holds (exec (.ldi 7 9) (code 0 [])) (fun t => decide (t.reg 7 ≠ (code 0 []).reg 7)) = true ∧
    (∀ b ∈ (Instr.add 0 1).readsRegs, b.toNat ≠ (2 : Fin 8).val) ∧ (∀ b ∈ (Instr.add 0 1).writesRegs, b.toNat ≠ (2 : Fin 8).val) ∧
    holds (exec (.add 0 1) (code 0 [])) (fun _ => true) = true := by decide

theorem witness_EveryStepKeepsTheInvariant :
    (code 254 [0x47, 7]).Inv ∧ holds (step (code 254 [0x47, 7])) (fun t => decide (t.pc.toNat = 256)) = true :=
  ⟨⟨by decide, by decide, .inl rfl⟩, by decide⟩

theorem witness_ResetMeetsTheInvariant : Memory.wf [(0, 1), (255, 7)] := by decide

theorem witness_BootedRunsMeetTheInvariant :
    Memory.wf [(255, 7)] ∧ holds (Session.boot ⟨false⟩ [(255, 7)] [0x01]) (fun h => decide (h.core.readMem 0 = 1)) = true := by decide

theorem witness_CanonicalMemoriesAreTheContents :
    Memory.wf [(255, 7)] ∧ Memory.wf (Memory.write [] 255 7) ∧ (∀ a, Memory.read [(255, 7)] a = (Memory.write [] 255 7).read a) ∧
    255 < 256 := ⟨by decide, by decide, fun _ => rfl, by decide⟩

/-- PUSH at 0 with `sp` = 3 stores at 2; CALL at 253 to 252 with `sp` = 253 stores at 252. -/
theorem witness_StoredByteIsFetchedNext :
    (7 : Byte).toNat = (7 : Fin 8).val ∧ (codeSp 0 [] 3).sp ≠ 0 ∧
    holds (exec (.push 7) (codeSp 0 [] 3)) (fun t => decide (t.pc.toNat = (codeSp 0 [] 3).sp.toNat - 1)) = true ∧
    ((codeSp 253 [] 253).setReg 7 252).pc.toNat ≤ 253 ∧
    holds (exec (.call 7) ((codeSp 253 [] 253).setReg 7 252))
      (fun t => decide (t.pc.toNat = ((codeSp 253 [] 253).setReg 7 252).sp.toNat - 1)) = true := by decide

/-! The rules of the single instructions: the largest valid register byte, the smallest invalid one, and each clause's bound. -/

theorem witness_AddWritesTheSumModulo256 : (7 : Byte).toNat = (7 : Fin 8).val ∧ 7 < (8 : Byte).toNat := by decide
theorem witness_SubWritesTheDifferenceModulo256 : (7 : Byte).toNat = (7 : Fin 8).val ∧ 7 < (8 : Byte).toNat := by decide
theorem witness_MulWritesTheLowByteOfTheProduct : (7 : Byte).toNat = (7 : Fin 8).val ∧ 7 < (8 : Byte).toNat := by decide

theorem witness_DivWritesTheQuotientOrFaults :
    (1 : Byte).toNat = (1 : Fin 8).val ∧ 7 < (8 : Byte).toNat ∧ ((code01 0 [] 9 0).reg 1).toNat = 0 ∧
    ((code01 0 [] 9 1).reg 1).toNat ≠ 0 := by decide

theorem witness_CmpSetsExactlyTheFlagOfTheOutcome :
    (0 : Byte).toNat = (0 : Fin 8).val ∧ 7 < (8 : Byte).toNat ∧
    ((code01 0 [] 7 7).reg 0).toNat = ((code01 0 [] 7 7).reg 1).toNat ∧
    ((code01 0 [] 8 7).reg 0).toNat > ((code01 0 [] 8 7).reg 1).toNat ∧
    ((code01 0 [] 7 8).reg 0).toNat < ((code01 0 [] 7 8).reg 1).toNat := by decide

theorem witness_AndOrXorWorkBitByBit : (7 : Byte).toNat = (7 : Fin 8).val ∧ 7 < (8 : Byte).toNat := by decide
theorem witness_NotWritesTheOnesComplement : (7 : Byte).toNat = (7 : Fin 8).val ∧ 7 < (8 : Byte).toNat := by decide

theorem witness_ShlMultipliesByThePowerOfTwo :
    (1 : Byte).toNat = (1 : Fin 8).val ∧ 7 < (8 : Byte).toNat ∧ ((code01 0 [] 1 8).reg 1).toNat ≥ 8 := by decide

theorem witness_ShrDividesByThePowerOfTwo :
    (1 : Byte).toNat = (1 : Fin 8).val ∧ 7 < (8 : Byte).toNat ∧ ((code01 0 [] 1 8).reg 1).toNat ≥ 8 := by decide

theorem witness_PushStoresBelowTheStackPointer :
    (7 : Byte).toNat = (7 : Fin 8).val ∧ 7 < (8 : Byte).toNat ∧ (codeSp 0 [] 0).sp.toNat = 0 ∧ (codeSp 0 [] 1).sp.toNat ≠ 0 := by
  decide

theorem witness_PopReadsAtTheStackPointer :
    (7 : Byte).toNat = (7 : Fin 8).val ∧ 7 < (8 : Byte).toNat ∧ (codeSp 0 [] 255).sp.toNat = 255 ∧
    (codeSp 0 [] 254).sp.toNat ≠ 255 ∧ (codeSp 0 [] 255).sp.toNat ≠ 0 := by decide

theorem witness_CallPushesTheReturnAddressAndJumps :
    (7 : Byte).toNat = (7 : Fin 8).val ∧ 7 < (8 : Byte).toNat ∧ 255 < (code 254 []).pc.toNat + 2 ∧
    ((codeSp 253 [] 0).pc.toNat + 2 ≤ 255 ∧ (codeSp 253 [] 0).sp.toNat = 0) ∧
    (codeSp 253 [] 1).pc.toNat + 2 ≤ 255 ∧ (codeSp 253 [] 1).sp.toNat ≠ 0 := by decide

theorem witness_RetPopsIntoThePc :
    (codeSp 0 [] 255).sp.toNat = 255 ∧ (codeSp 0 [] 254).sp.toNat ≠ 255 ∧ (7 : Byte).toNat = (7 : Fin 8).val ∧
    (codeSp 253 [] 1).pc.toNat + 2 ≤ 255 ∧ (codeSp 253 [] 1).sp.toNat ≠ 0 := by decide

theorem witness_LdiWritesTheImmediate : (7 : Byte).toNat = (7 : Fin 8).val ∧ 7 < (8 : Byte).toNat := by decide

theorem witness_PrnAppendsTheRegisterToTheOutput :
    (7 : Byte).toNat = (7 : Fin 8).val ∧ 7 < (8 : Byte).toNat ∧ (7 : Byte).toNat ≤ 7 := by decide

theorem witness_JmpGoesToTheRegistersAddress : (7 : Byte).toNat = (7 : Fin 8).val ∧ 7 < (8 : Byte).toNat := by decide

theorem witness_JeqJumpsWhenEqualIsSet :
    (2 : Byte).toNat = (2 : Fin 8).val ∧ 7 < (8 : Byte).toNat ∧ (codeJump 0x55 true).fl.e = true ∧
    (codeJump 0x55 false).fl.e = false := by decide

theorem witness_JneJumpsWhenEqualIsClear :
    (2 : Byte).toNat = (2 : Fin 8).val ∧ 7 < (8 : Byte).toNat ∧ (codeJump 0x56 true).fl.e = true ∧
    (codeJump 0x56 false).fl.e = false := by decide

end Sys2Proof.Tests
end

/-! # Family 10_state.md: who writes the run state, the flags and the output, and who reads them -/

namespace Sys2Proof.Machine

/-! ## The step, by the instruction it dispatches to -/

theorem State.current_of_decode_ok {s : State} {i : Instr} {rest : List Byte}
    (h : decode s.cfg.hasDiv s.fetchBytes = .ok (i, rest)) : s.current = some i := by
  simp [State.current, h]

theorem State.current_of_decode_error {s : State} {e : DecodeError}
    (h : decode s.cfg.hasDiv s.fetchBytes = .error e) : s.current = none := by
  simp [State.current, h]

/-- A running core whose fetched bytes decode to an instruction steps by that instruction's rule. -/
theorem step_of_decode_ok {s : State} {i : Instr} {rest : List Byte} (hr : s.run = .running)
    (h : decode s.cfg.hasDiv s.fetchBytes = .ok (i, rest)) : step s = exec i s := by
  rw [step_running hr, h]

/-- A running core whose fetched bytes are no instruction faults (43_execution_loop.md R181 to R183). -/
theorem step_of_decode_error {s : State} {e : DecodeError} (hr : s.run = .running)
    (h : decode s.cfg.hasDiv s.fetchBytes = .error e) : step s = .next (s.setRun (.faulted (decodeFault e))) := by
  rw [step_running hr, h]
  rfl

/-- All that a step can do: a fault where no instruction is dispatched to, else an effect of the dispatched one. -/
theorem step_effect {s t : State} (h : step s = .next t) :
    s.run = .running ∧
      ((s.current = none ∧ ∃ k, t = s.setRun (.faulted k)) ∨ ∃ i, s.current = some i ∧ Effect i s t) := by
  obtain ⟨hr, ⟨e, hd, rfl⟩ | ⟨i, rest, hd, hx⟩⟩ := step_next h
  · exact ⟨hr, .inl ⟨State.current_of_decode_error hd, _, rfl⟩⟩
  · exact ⟨hr, .inr ⟨i, State.current_of_decode_ok hd, exec_effect hx⟩⟩

/-- Whether an instruction faults depends on the registers, `pc` and `sp` alone. -/
theorem FaultCause.congr {i : Instr} {s t : State} {k : FaultKind} (c : FaultCause i s k) (hx : ∀ r, t.reg r = s.reg r)
    (hpc : t.pc = s.pc) (hsp : t.sp = s.sp) : FaultCause i t k := by
  cases c with
  | register b mem bad => exact .register b mem bad
  | returnAddress a r ha high => exact .returnAddress a r ha (hpc ▸ high)
  | divisor a b r q ha hb zero => exact .divisor a b r q ha hb ((hx q).trans zero)
  | push a r ha zero => exact .push a r ha (hsp.trans zero)
  | call a r ha low zero => exact .call a r ha (hpc ▸ low) (hsp.trans zero)
  | pop a r ha top => exact .pop a r ha (hsp.trans top)
  | ret top => exact .ret (hsp.trans top)

/-! ## The run state -/

/-- HLT has no operand and no operation that could fault. -/
theorem FaultCause.ne_hlt {i : Instr} {s : State} {k : FaultKind} (c : FaultCause i s k) : i ≠ .hlt := by
  rintro rfl
  cases c with
  | register b mem bad => simp [Instr.regOperands] at mem

/-- An instruction leaves the run state alone, or it is HLT and halts, or it takes a fault. -/
theorem Effect.run_cases {i : Instr} {s t : State} (e : Effect i s t) :
    (i ≠ .hlt ∧ t.run = s.run) ∨ (i = .hlt ∧ t.run = .halted) ∨ (i ≠ .hlt ∧ ∃ k, t = s.setRun (.faulted k)) := by
  cases e with
  | fault c => exact .inr (.inr ⟨c.ne_hlt, _, rfl⟩)
  | hlt => exact .inr (.inl ⟨rfl, rfl⟩)
  | binary a b r q op => exact .inl ⟨by rintro rfl; simp [binaryOps] at op, rfl⟩
  | jump a r ha taken => exact .inl ⟨by rintro rfl; simp at taken, rfl⟩
  | skip a r ha notTaken => exact .inl ⟨by rintro rfl; simp at notTaken, rfl⟩
  | _ => exact .inl ⟨nofun, rfl⟩

/-- Settles O24, by the three things an instruction can do to the run state. -/
theorem haltedIsEnteredOnlyByHlt : Obligations.HaltedIsEnteredOnlyByHlt := by
  refine ⟨fun _ _ => rfl, fun s t h => ?_⟩
  obtain ⟨hr, ⟨hc, k, rfl⟩ | ⟨i, hc, e⟩⟩ := step_effect h
  · exact ⟨by simp [hc], .inr (.inr ⟨k, rfl⟩)⟩
  · obtain ⟨hi, ht⟩ | ⟨rfl, ht⟩ | ⟨hi, k, rfl⟩ := e.run_cases
    · exact ⟨by simp [hc, hi, ht, hr], .inl (ht.trans hr)⟩
    · exact ⟨by simp [hc, ht], .inr (.inl ht)⟩
    · exact ⟨by simp [hc, hi], .inr (.inr ⟨k, rfl⟩)⟩

/-! ## The flags -/

/-- An instruction leaves the flags alone, or it is CMP and sets them to the outcome of a comparison. -/
theorem Effect.fl_cases {i : Instr} {s t : State} (e : Effect i s t) :
    t.fl = s.fl ∨ ∃ a b u v, i = .cmp a b ∧ t.fl = Flags.compare u v := by
  cases e with
  | cmp a b r q => exact .inr ⟨a, b, s.reg r, s.reg q, rfl, rfl⟩
  | _ => exact .inl rfl

/-- So it is with a step: the flags change only where it dispatches to CMP. -/
theorem step_fl_cases {s t : State} (h : step s = .next t) :
    t.fl = s.fl ∨ ∃ a b u v, s.current = some (.cmp a b) ∧ t.fl = Flags.compare u v := by
  obtain ⟨-, ⟨-, k, rfl⟩ | ⟨i, hc, e⟩⟩ := step_effect h
  · exact .inl rfl
  · obtain ht | ⟨a, b, u, v, rfl, ht⟩ := e.fl_cases
    · exact .inl ht
    · exact .inr ⟨a, b, u, v, hc, ht⟩

theorem Flags.compare_oneHot (u v : Byte) : (Flags.compare u v).oneHot := by
  unfold Flags.compare Flags.oneHot
  split
  · exact .inr (.inr rfl)
  · split
    · exact .inr (.inl rfl)
    · exact .inl rfl

/-- With other flags, of which the instruction reads none that differs, the effect is the same but for the flags:
all other parts are computed from other parts, and the two conditional jumps see the same `E`. -/
theorem Effect.setFlags {i : Instr} {s t : State} (e : Effect i s t) {f : Flags}
    (hf : i.readsFlag = false ∨ f.e = s.fl.e) : ∃ g, Effect i (s.setFlags f) (t.setFlags g) := by
  cases e with
  | fault c => exact ⟨f, .fault (c.congr (fun _ => rfl) rfl rfl)⟩
  | binary a b r q op ha hb => exact ⟨f, .binary a b r q op ha hb⟩
  | div a b r q ha hb nonzero => exact ⟨f, .div a b r q ha hb nonzero⟩
  | cmp a b r q ha hb => exact ⟨_, .cmp a b r q ha hb⟩
  | not a r ha => exact ⟨f, .not a r ha⟩
  | hlt => exact ⟨f, .hlt⟩
  | ldi a imm r ha => exact ⟨f, .ldi a imm r ha⟩
  | push a r ha nonzero => exact ⟨f, .push a r ha nonzero⟩
  | pop a r ha below => exact ⟨f, .pop a r ha below⟩
  | prn a r ha => exact ⟨f, .prn a r ha⟩
  | call a r ha low nonzero => exact ⟨f, .call a r ha low nonzero⟩
  | ret below => exact ⟨f, .ret below⟩
  | jump a r ha taken =>
    refine ⟨f, .jump a r ha ?_⟩
    obtain rfl | ⟨rfl, he⟩ | ⟨rfl, he⟩ := taken
    · exact .inl rfl
    · exact .inr (.inl ⟨rfl, (hf.resolve_left nofun).trans he⟩)
    · exact .inr (.inr ⟨rfl, (hf.resolve_left nofun).trans he⟩)
  | skip a r ha notTaken =>
    refine ⟨f, .skip a r ha ?_⟩
    obtain ⟨rfl, he⟩ | ⟨rfl, he⟩ := notTaken
    · exact .inl ⟨rfl, (hf.resolve_left nofun).trans he⟩
    · exact .inr ⟨rfl, (hf.resolve_left nofun).trans he⟩

/-- Settles O25: the write side by `Effect.fl_cases`, the read side by `Effect.setFlags`. -/
theorem flagsAreWrittenByCmpAndReadByJumpsAlone : Obligations.FlagsAreWrittenByCmpAndReadByJumpsAlone := by
  refine ⟨fun i s t h hne => ?_, fun s t h hne => ?_, fun i s t f hf h => ?_⟩
  · obtain ⟨a, b, _, _, hi, -⟩ := (exec_effect h).fl_cases.resolve_left hne
    exact ⟨a, b, hi⟩
  · obtain ⟨a, b, _, _, hc, -⟩ := (step_fl_cases h).resolve_left hne
    exact ⟨a, b, hc⟩
  · obtain ⟨g, e⟩ := (exec_effect h).setFlags hf
    exact ⟨t.setFlags g, e.exec, unchanged_setFlags t g⟩

/-- Settles O26: the flags a step leaves are the old ones or the outcome of a comparison, which sets exactly one. -/
theorem flagsAreClearThenOneHot : Obligations.FlagsAreClearThenOneHot := by
  refine ⟨fun _ _ => rfl, fun a b s t ha hb h => ?_, fun s t h hne => ?_, fun s t h hs => ?_⟩
  · rw [exec, execCmp, withRegs_valid (i := ⟨a.toNat, by omega⟩) (j := ⟨b.toNat, by omega⟩) rfl rfl] at h
    cases h
    exact Flags.compare_oneHot _ _
  · exact (step_fl_cases h).resolve_right fun ⟨a, b, _, _, hc, _⟩ => hne a b hc
  · obtain ht | ⟨_, _, u, v, -, ht⟩ := step_fl_cases h <;> rw [ht]
    · exact hs
    · exact Flags.compare_oneHot u v

/-! ## The output -/

/-- The state with another output: everything but `out` is as it was. -/
theorem unchanged_out (s : State) (o : List Byte) : Unchanged s { s with out := o } [.out] := by
  intro p hp
  cases p with
  | out => exact absurd (List.mem_singleton.mpr rfl) hp
  | _ => rfl

/-- An instruction leaves `out` alone, or it is PRN and appends its register; with any other output it does the same. -/
theorem Effect.out_cases {i : Instr} {s t : State} (e : Effect i s t) (o : List Byte) :
    (t.out = s.out ∧ Effect i { s with out := o } { t with out := o }) ∨
      ∃ (a : Byte) (r : Fin 8), i = .prn a ∧ a.toNat = r.val ∧ t.out = s.out ++ [s.reg r] ∧
        Effect i { s with out := o } { t with out := o ++ [s.reg r] } := by
  cases e with
  | prn a r ha => exact .inr ⟨a, r, rfl, ha, rfl, .prn a r ha⟩
  | fault c => exact .inl ⟨rfl, .fault (c.congr (fun _ => rfl) rfl rfl)⟩
  | binary a b r q op ha hb => exact .inl ⟨rfl, .binary a b r q op ha hb⟩
  | div a b r q ha hb nonzero => exact .inl ⟨rfl, .div a b r q ha hb nonzero⟩
  | cmp a b r q ha hb => exact .inl ⟨rfl, .cmp a b r q ha hb⟩
  | not a r ha => exact .inl ⟨rfl, .not a r ha⟩
  | hlt => exact .inl ⟨rfl, .hlt⟩
  | ldi a imm r ha => exact .inl ⟨rfl, .ldi a imm r ha⟩
  | push a r ha nonzero => exact .inl ⟨rfl, .push a r ha nonzero⟩
  | pop a r ha below => exact .inl ⟨rfl, .pop a r ha below⟩
  | call a r ha low nonzero => exact .inl ⟨rfl, .call a r ha low nonzero⟩
  | ret below => exact .inl ⟨rfl, .ret below⟩
  | jump a r ha taken => exact .inl ⟨rfl, .jump a r ha taken⟩
  | skip a r ha notTaken => exact .inl ⟨rfl, .skip a r ha notTaken⟩

/-- So it is with a step, whose fetch and dispatch do not look at `out` either. -/
theorem step_out_cases {s t : State} (h : step s = .next t) (o : List Byte) :
    (t.out = s.out ∧ step { s with out := o } = .next { t with out := o }) ∨
      ∃ (a : Byte) (r : Fin 8), s.current = some (.prn a) ∧ a.toNat = r.val ∧ t.out = s.out ++ [s.reg r] ∧
        step { s with out := o } = .next { t with out := o ++ [s.reg r] } := by
  obtain ⟨hr, ⟨e, hd, rfl⟩ | ⟨i, rest, hd, hx⟩⟩ := step_next h
  · exact .inl ⟨rfl, step_of_decode_error (s := { s with out := o }) hr hd⟩
  · have hstep : step { s with out := o } = exec i { s with out := o } :=
      step_of_decode_ok (s := { s with out := o }) hr hd
    obtain ⟨ht, e⟩ | ⟨a, r, rfl, ha, ht, e⟩ := (exec_effect hx).out_cases o
    · exact .inl ⟨ht, hstep.trans e.exec⟩
    · exact .inr ⟨a, r, State.current_of_decode_ok hd, ha, ht, hstep.trans e.exec⟩

/-- Settles O29, by `step_out_cases`: what is appended is empty, or the one byte of a PRN. -/
theorem outputGrowsOnlyByPrnAndIsNeverRead : Obligations.OutputGrowsOnlyByPrnAndIsNeverRead := by
  refine ⟨fun _ _ => rfl, fun s t h hne => ?_, fun s t o h => ?_⟩
  · obtain ⟨a, r, hc, ha, ht, -⟩ := (step_out_cases h s.out).resolve_left fun same => hne same.1
    exact ⟨a, r, hc, ha, ht⟩
  · obtain ⟨ht, hu⟩ | ⟨_, r, -, -, ht, hu⟩ := step_out_cases h o
    · exact ⟨_, [], hu, by simp [ht], by simp, unchanged_out t o⟩
    · exact ⟨_, [s.reg r], hu, ht, rfl, unchanged_out t _⟩

end Sys2Proof.Machine

/-! # Family 30_encoding.md: the fields of the opcode byte, and the register operand's check -/

namespace Sys2Proof.Machine

/-! ## The fields of the opcode byte, as arithmetic on its number (30_encoding.md R81) -/

/-- Bits 7-6. -/
theorem opcodeFields_operandCount (ir : Byte) : (opcodeFields ir).operandCount.toNat = ir.toNat / 64 := by
  have hcut : (opcodeFields ir).operandCount.toNat = (ir.toNat >>> 6) % 2 ^ 2 := BitVec.extractLsb'_toNat 6 2 ir
  have hlt := ir.isLt
  rw [hcut, Nat.shiftRight_eq_div_pow]
  omega

/-- One bit of a byte. -/
theorem getLsbD_iff_div_mod (ir : Byte) (k : Nat) : ir.getLsbD k = true ↔ ir.toNat / 2 ^ k % 2 = 1 := by
  rw [← BitVec.testBit_toNat, Nat.testBit_eq_decide_div_mod_eq, decide_eq_true_iff]

/-- Bit 5. -/
theorem opcodeFields_isAlu (ir : Byte) : (opcodeFields ir).isAlu = true ↔ ir.toNat / 32 % 2 = 1 :=
  getLsbD_iff_div_mod ir 5

/-- Bit 4. -/
theorem opcodeFields_setsPc (ir : Byte) : (opcodeFields ir).setsPc = true ↔ ir.toNat / 16 % 2 = 1 :=
  getLsbD_iff_div_mod ir 4

/-- Bits 3-0. -/
theorem opcodeFields_opcodeId (ir : Byte) : (opcodeFields ir).opcodeId.toNat = ir.toNat % 16 :=
  BitVec.extractLsb'_toNat 0 4 ir

/-- Settles O10: the fields of any byte by their own lemmas, their meaning for an instruction by `RowFields.all`. -/
theorem opcodeFieldsAreTheBitsOfTheByte : Obligations.OpcodeFieldsAreTheBitsOfTheByte := by
  refine ⟨fun ir => ⟨opcodeFields_operandCount ir, opcodeFields_isAlu ir, opcodeFields_setsPc ir,
    opcodeFields_opcodeId ir⟩, fun i => ?_⟩
  obtain ⟨count, alu, own, -⟩ := Laws.RowFields.all i
  exact ⟨count, alu, own⟩

/-! ## The register operand's check -/

/-- Settles O23: an index above 7 is a cause to fault for every instruction, and a cause is what `exec` answers. -/
theorem registerIndexAboveSevenFaults : Obligations.RegisterIndexAboveSevenFaults := by
  rintro i s ⟨b, mem, bad⟩
  exact (FaultCause.register b mem bad).exec

end Sys2Proof.Machine

/-! # Family 40_alu.md: what the ALU instructions compute, and what they leave unchanged -/

namespace Sys2Proof.Machine

/-! ## Decoding an instruction from its own bytes -/

/-- The decoder reads an instruction back from its encoding, whatever bytes follow; DIV only when `HAS_DIV` (R89). -/
theorem decode_encode_append {hasDiv : Bool} {i : Instr} (hdiv : ∀ a b, i = .div a b → hasDiv = true) (rest : List Byte) :
    decode hasDiv (encode i ++ rest) = .ok (i, rest) := by
  have hn : operandCount i.opcode = i.operands.length := (Laws.RowFields.all i).1
  have hle : i.operands.length ≤ 2 := by cases i <;> simp [Instr.operands]
  have hsel : select hasDiv i.opcode ((i.operands ++ rest).getD 0 0) ((i.operands ++ rest).getD 1 0) = some i := by
    cases i with
    | div a b => exact if_pos (hdiv a b rfl)
    | _ => rfl
  rw [encode, List.cons_append, decode, hn, if_neg (by omega), if_neg (by simp), hsel, List.drop_left]

/-! ## The two register operands and the frame of a register write -/

/-- An instruction with two register operands faults when either index is above 7 (40_alu.md R110). -/
theorem exec_invalid_of_regOperands {i : Instr} {a b : Byte} (ops : i.regOperands = [a, b])
    (bad : 7 < a.toNat ∨ 7 < b.toNat) (s : State) : exec i s = takeFault .invalidOperand s := by
  obtain bad | bad := bad
  · exact (FaultCause.register a (by simp [ops]) bad).exec
  · exact (FaultCause.register b (by simp [ops]) bad).exec

theorem unchanged_setReg_advance (s : State) (r : Fin 8) (v : Byte) (n : Nat) :
    Unchanged s ((s.setReg r v).advance n) [.reg r, .pc] :=
  (unchanged_setReg s r v).trans (unchanged_advance _ n)

/-- The contract of an instruction of the ALU shape on valid registers: it completes, writes its function's value to its
first register, moves `pc` past its three bytes, and changes nothing else (40_alu.md R110). -/
theorem exec_binary {i : Instr} {f : Byte → Byte → Byte} {a b : Byte} {r q : Fin 8} (op : (i, f) ∈ binaryOps a b)
    (ha : a.toNat = r.val) (hb : b.toNat = q.val) (s : State) :
    ∃ t, exec i s = .next t ∧ t.reg r = f (s.reg r) (s.reg q) ∧ t.pc = s.pc + 3 ∧ Unchanged s t [.reg r, .pc] :=
  ⟨_, (Effect.binary a b r q op ha hb).exec, State.reg_setReg_self s r _, rfl, unchanged_setReg_advance s r _ 2⟩

/-! ## The flags of a comparison, by its outcome -/

theorem Flags.compare_of_eq {u v : Byte} (h : u.toNat = v.toNat) : Flags.compare u v = ⟨false, false, true⟩ :=
  if_pos (BitVec.eq_of_toNat_eq h)

theorem Flags.compare_of_gt {u v : Byte} (h : u.toNat > v.toNat) : Flags.compare u v = ⟨false, true, false⟩ := by
  have hne : u ≠ v := by rintro rfl; exact lt_irrefl _ h
  rw [Flags.compare, if_neg hne, if_pos h]

theorem Flags.compare_of_lt {u v : Byte} (h : u.toNat < v.toNat) : Flags.compare u v = ⟨true, false, false⟩ := by
  have hne : u ≠ v := by rintro rfl; exact lt_irrefl _ h
  rw [Flags.compare, if_neg hne, if_neg h.not_gt]

/-! ## The obligations -/

/-- Settles O36: the ALU shape at `+`, whose number is the sum modulo 256. -/
theorem addWritesTheSumModulo256 : Obligations.AddWritesTheSumModulo256 := by
  refine fun a b s => ⟨fun _ => decode_encode_append (i := .add a b) nofun,
    fun bad => exec_invalid_of_regOperands rfl bad s, fun i j ha hb => ?_⟩
  obtain ⟨t, ht, hreg, frame⟩ := exec_binary (i := .add a b) (f := (· + ·)) (by simp [binaryOps]) ha hb s
  exact ⟨t, ht, hreg ▸ BitVec.toNat_add .., frame⟩

/-- Settles O38: the ALU shape at `*`, whose number is the product modulo 256. -/
theorem mulWritesTheLowByteOfTheProduct : Obligations.MulWritesTheLowByteOfTheProduct := by
  refine fun a b s => ⟨fun _ => decode_encode_append (i := .mul a b) nofun,
    fun bad => exec_invalid_of_regOperands rfl bad s, fun i j ha hb => ?_⟩
  obtain ⟨t, ht, hreg, frame⟩ := exec_binary (i := .mul a b) (f := (· * ·)) (by simp [binaryOps]) ha hb s
  exact ⟨t, ht, hreg ▸ BitVec.toNat_mul .., frame⟩

/-- Settles O40: the flags CMP leaves are `Flags.compare`, known in each of the three outcomes. -/
theorem cmpSetsExactlyTheFlagOfTheOutcome : Obligations.CmpSetsExactlyTheFlagOfTheOutcome := by
  refine fun a b s => ⟨fun _ => decode_encode_append (i := .cmp a b) nofun,
    fun bad => exec_invalid_of_regOperands rfl bad s, fun i j ha hb => ?_⟩
  refine ⟨_, (Effect.cmp a b i j ha hb).exec, fun heq => ?_, fun hgt => ?_, fun hlt => ?_, rfl,
    (unchanged_setFlags s _).trans (unchanged_advance _ 2)⟩
  · simp [Flags.compare_of_eq heq]
  · simp [Flags.compare_of_gt hgt]
  · simp [Flags.compare_of_lt hlt]

/-- Settles O41: the ALU shape at the three bitwise operations, each read off one bit at a time. -/
theorem andOrXorWorkBitByBit : Obligations.AndOrXorWorkBitByBit := by
  refine fun a b s => ⟨fun _ rest => ⟨decode_encode_append (i := .and a b) nofun rest,
    decode_encode_append (i := .or a b) nofun rest, decode_encode_append (i := .xor a b) nofun rest⟩,
    fun bad => ⟨exec_invalid_of_regOperands rfl bad s, exec_invalid_of_regOperands rfl bad s,
      exec_invalid_of_regOperands rfl bad s⟩, fun i j ha hb => ⟨?_, ?_, ?_⟩⟩
  · obtain ⟨t, ht, hreg, frame⟩ := exec_binary (i := .and a b) (f := (· &&& ·)) (by simp [binaryOps]) ha hb s
    exact ⟨t, ht, fun _ _ => hreg ▸ BitVec.getLsbD_and, frame⟩
  · obtain ⟨t, ht, hreg, frame⟩ := exec_binary (i := .or a b) (f := (· ||| ·)) (by simp [binaryOps]) ha hb s
    exact ⟨t, ht, fun _ _ => hreg ▸ BitVec.getLsbD_or, frame⟩
  · obtain ⟨t, ht, hreg, frame⟩ := exec_binary (i := .xor a b) (f := (· ^^^ ·)) (by simp [binaryOps]) ha hb s
    exact ⟨t, ht, fun _ _ => by rw [hreg, BitVec.getLsbD_xor, bne_iff_ne], frame⟩

/-- Settles O42: NOT writes the bitwise complement, whose number is 255 minus the register's. -/
theorem notWritesTheOnesComplement : Obligations.NotWritesTheOnesComplement := by
  refine fun a s => ⟨fun _ => decode_encode_append (i := .not a) nofun,
    fun bad => (FaultCause.register a (List.mem_singleton.mpr rfl) bad).exec, fun i ha => ?_⟩
  refine ⟨_, (Effect.not a i ha).exec, ?_, rfl, unchanged_setReg_advance s i _ 1⟩
  rw [State.advance_reg, State.reg_setReg_self, BitVec.toNat_not]

end Sys2Proof.Machine

/-! # Family 41_stack.md: what PUSH and RET do at the stack pointer, and what they leave unchanged -/

namespace Sys2Proof.Machine

/-! ## The stack pointer as a number -/

/-- Above 0 a push's decrement does not wrap (41_stack.md R140). -/
theorem sp_sub_one_toNat {sp : Byte} (h : sp.toNat ≠ 0) : (sp - 1).toNat = sp.toNat - 1 :=
  BitVec.toNat_sub_of_le (BitVec.le_def.mpr (Nat.one_le_iff_ne_zero.mpr h))

/-- Below 255 a pop's increment does not wrap (41_stack.md R140). -/
theorem sp_add_one_toNat {sp : Byte} (h : sp.toNat ≠ 255) : (sp + 1).toNat = sp.toNat + 1 := by
  have hlt := sp.isLt
  exact BitVec.toNat_add_of_lt (show sp.toNat + 1 < 256 by omega)

/-- The state a push leaves differs in the cell below `sp` and in `sp`. -/
theorem unchanged_push (s : State) (v : Byte) :
    Unchanged s ((s.writeMem (s.sp.toNat - 1) v).setSp (s.sp - 1)) [.cell (s.sp.toNat - 1), .sp] :=
  (unchanged_writeMem s _ v).trans (unchanged_setSp _ _)

/-! ## RET, and CALL as a RET sees it -/

/-- RET below the top of memory completes: `pc` is the byte at `sp`, `sp` is one more (41_stack.md R144). -/
theorem exec_ret {s : State} (below : s.sp.toNat ≠ 255) :
    exec .ret s = .next ((s.setSp (s.sp + 1)).setPc (zext9 (s.readMem s.sp.toNat))) :=
  (Effect.ret (ne_of_apply_ne BitVec.toNat below)).exec

/-- The state a CALL leaves: the return address is in the cell that `sp` now points at, and a RET finds room to pop it
(41_stack.md R143). -/
theorem exec_call {a : Byte} {i : Fin 8} {s : State} (ha : a.toNat = i.val) (low : s.pc.toNat + 2 ≤ 255)
    (pos : s.sp.toNat ≠ 0) :
    ∃ t, exec (.call a) s = .next t ∧ (t.readMem t.sp.toNat).toNat = s.pc.toNat + 2 ∧ t.sp = s.sp - 1 ∧
      t.sp.toNat ≠ 255 := by
  have hsp := sp_sub_one_toNat pos
  refine ⟨_, (Effect.call a i ha low (ne_of_apply_ne BitVec.toNat pos)).exec, ?_, rfl, ?_⟩
  · rw [State.setPc_sp, State.setSp_sp, hsp, State.setPc_readMem, State.setSp_readMem, State.readMem_writeMem_self,
      BitVec.toNat_ofNat]
    omega
  · have hlt := s.sp.isLt
    rw [State.setPc_sp, State.setSp_sp, hsp]
    omega

/-! ## The obligations -/

/-- Settles O45: the register check, then the stack's, then the effect of a push. -/
theorem pushStoresBelowTheStackPointer : Obligations.PushStoresBelowTheStackPointer := by
  refine fun a s => ⟨fun _ => decode_encode_append (i := .push a) nofun,
    fun bad => (FaultCause.register a (List.mem_singleton.mpr rfl) bad).exec, fun i ha => ⟨fun zero => ?_, fun pos => ?_⟩⟩
  · exact (FaultCause.push a i ha (BitVec.eq_of_toNat_eq zero)).exec
  · exact ⟨_, (Effect.push a i ha (ne_of_apply_ne BitVec.toNat pos)).exec, State.readMem_writeMem_self s _ _,
      sp_sub_one_toNat pos, rfl, (unchanged_push s _).trans (unchanged_advance _ 1)⟩

/-- Settles O48: RET's own contract by `exec_ret`; after a CALL it pops what `exec_call` says was pushed. -/
theorem retPopsIntoThePc : Obligations.RetPopsIntoThePc := by
  refine ⟨fun _ => decode_encode_append (i := .ret) nofun, fun s => ⟨fun top => ?_, fun below => ?_⟩,
    fun a i s ha low pos => ?_⟩
  · exact (FaultCause.ret (BitVec.eq_of_toNat_eq top)).exec
  · exact ⟨_, exec_ret below, zext9_toNat _, sp_add_one_toNat below, (unchanged_setSp s _).trans (unchanged_setPc _ _)⟩
  · obtain ⟨t, hcall, pushed, hsp, below⟩ := exec_call ha low pos
    refine ⟨t, _, hcall, exec_ret below, (zext9_toNat _).trans pushed, ?_⟩
    rw [State.setPc_sp, State.setSp_sp, hsp, BitVec.sub_add_cancel]

end Sys2Proof.Machine

/-! # Family 42_control.md: what LDI, PRN, JMP and JNE do, and what they leave unchanged -/

namespace Sys2Proof.Machine

/-- An instruction whose one register operand has an index above 7 faults (42_control.md section 2). -/
theorem exec_invalid_of_regOperand {i : Instr} {a : Byte} (ops : i.regOperands = [a]) (bad : 7 < a.toNat) (s : State) :
    exec i s = takeFault .invalidOperand s :=
  (FaultCause.register a (by simp [ops]) bad).exec

/-- Settles O50: the effect of LDI writes the immediate to the register and moves `pc` past three bytes. -/
theorem ldiWritesTheImmediate : Obligations.LdiWritesTheImmediate := by
  refine fun a imm s => ⟨fun _ => decode_encode_append (i := .ldi a imm) nofun,
    fun bad => exec_invalid_of_regOperand rfl bad s, fun i ha => ?_⟩
  exact ⟨_, (Effect.ldi a imm i ha).exec, State.reg_setReg_self s i imm, rfl, unchanged_setReg_advance s i imm 2⟩

/-- Settles O51: PRN's own contract by its effect; after an LDI to the same register it reads what that wrote. -/
theorem prnAppendsTheRegisterToTheOutput : Obligations.PrnAppendsTheRegisterToTheOutput := by
  refine ⟨fun a s => ⟨fun _ => decode_encode_append (i := .prn a) nofun,
    fun bad => exec_invalid_of_regOperand rfl bad s, fun i ha => ?_⟩, fun a v s valid => ?_⟩
  · exact ⟨_, (Effect.prn a i ha).exec, rfl, rfl, (unchanged_emit s _).trans (unchanged_advance _ 1)⟩
  · obtain ⟨r, ha⟩ : ∃ r : Fin 8, a.toNat = r.val := ⟨⟨a.toNat, Nat.lt_succ_of_le valid⟩, rfl⟩
    refine ⟨_, _, (Effect.ldi a v r ha).exec, (Effect.prn a r ha).exec, ?_⟩
    rw [State.advance_out, State.emit_out, State.advance_reg, State.reg_setReg_self, State.advance_out, State.setReg_out]

/-- Settles O52: JMP always jumps, to the number of its register. -/
theorem jmpGoesToTheRegistersAddress : Obligations.JmpGoesToTheRegistersAddress := by
  refine fun a s => ⟨fun _ => decode_encode_append (i := .jmp a) nofun,
    fun bad => exec_invalid_of_regOperand rfl bad s, fun i ha => ?_⟩
  exact ⟨_, (Effect.jump a i ha (.inl rfl)).exec, zext9_toNat _, unchanged_setPc s _⟩

/-- Settles O54: with E clear the effect of JNE is a jump, with E set it skips its operand. -/
theorem jneJumpsWhenEqualIsClear : Obligations.JneJumpsWhenEqualIsClear := by
  refine fun a s => ⟨fun _ => decode_encode_append (i := .jne a) nofun,
    fun bad => exec_invalid_of_regOperand rfl bad s, fun i ha => ?_⟩
  cases he : s.fl.e with
  | false =>
    exact ⟨_, (Effect.jump a i ha (.inr (.inr ⟨rfl, he⟩))).exec, fun _ => zext9_toNat _, nofun, unchanged_setPc s _⟩
  | true => exact ⟨_, (Effect.skip a i ha (.inr ⟨rfl, he⟩)).exec, nofun, fun _ => rfl, unchanged_advance s 1⟩

end Sys2Proof.Machine

/-! # Family 43_execution_loop.md: when a step exists, and where it leaves `pc` -/

namespace Sys2Proof.Machine

/-! ## The step of a running core -/

/-- A running core runs the instruction it dispatches to, or faults where it dispatches to none (R187). -/
theorem step_running_cases {s : State} (hr : s.run = .running) :
    (∃ i, s.current = some i ∧ step s = exec i s) ∨ ∃ k, step s = .next (s.setRun (.faulted k)) := by
  match hd : decode s.cfg.hasDiv s.fetchBytes with
  | .ok (i, _) => exact .inl ⟨i, State.current_of_decode_ok hd, step_of_decode_ok hr hd⟩
  | .error e => exact .inr ⟨decodeFault e, step_of_decode_error hr hd⟩

/-- Settles O4: a running core has a step because every instruction answers a next state (`exec_total`). -/
theorem stepExistsExactlyWhileRunning : Obligations.StepExistsExactlyWhileRunning := by
  refine ⟨fun s => ⟨fun ⟨_, h⟩ => (step_next h).1, fun hr => ?_⟩, fun _ => step_running_cases⟩
  obtain ⟨i, -, h⟩ | ⟨k, h⟩ := step_running_cases hr
  · exact h ▸ exec_total i s
  · exact ⟨_, h⟩

/-! ## The opcode byte of the dispatched instruction -/

/-- The dispatch answers only an instruction whose opcode byte it was given. -/
theorem opcode_of_select {hasDiv : Bool} {ir opa opb : Byte} {i : Instr} (h : select hasDiv ir opa opb = some i) :
    i.opcode = ir := by
  unfold select at h
  split at h
  case h_4 =>
    cases hasDiv <;> cases h
    rfl
  case h_22 => cases h
  all_goals
    cases h
    rfl

theorem operands_length_le (i : Instr) : i.operands.length ≤ 2 := by
  cases i <;> simp [Instr.operands]

/-- Bytes that decode to an instruction begin with its opcode byte. -/
theorem decode_ok_head {hasDiv : Bool} {bytes rest : List Byte} {i : Instr} (h : decode hasDiv bytes = .ok (i, rest)) :
    ∃ tail, bytes = i.opcode :: tail := by
  cases bytes with
  | nil => cases h
  | cons ir tail =>
    simp only [decode] at h
    split_ifs at h
    split at h
    · next hsel =>
      cases h
      exact ⟨tail, by rw [opcode_of_select hsel]⟩
    · cases h

/-- A core that dispatches to an instruction has `pc` at an address, where that instruction's opcode byte stands (R181). -/
theorem State.opcode_of_current {s : State} {i : Instr} (h : s.current = some i) :
    s.pc.toNat ≤ 255 ∧ s.readMem s.pc.toNat = i.opcode := by
  match hd : decode s.cfg.hasDiv s.fetchBytes with
  | .error e => simp [State.current_of_decode_error hd] at h
  | .ok (j, rest) =>
    obtain rfl : j = i := Option.some.inj ((State.current_of_decode_ok hd).symm.trans h)
    obtain ⟨tail, hf⟩ := decode_ok_head hd
    have hpc : s.pc.toNat ≤ 255 := Nat.le_of_not_lt fun past => by simp [State.fetchBytes_past past] at hf
    rw [State.fetchBytes_head hpc] at hf
    exact ⟨hpc, (List.cons.inj hf).1⟩

/-- `sets_pc` is 1 for CALL, RET, JMP, JEQ and JNE alone (30_encoding.md R90). -/
theorem setsPc_iff (i : Instr) : i.setsPc = true ↔
    (∃ a, i = .call a) ∨ i = .ret ∨ (∃ a, i = .jmp a) ∨ (∃ a, i = .jeq a) ∨ ∃ a, i = .jne a := by
  cases i <;> simp [Instr.setsPc]

/-! ## Where a completed instruction leaves `pc` -/

theorem Effect.unique {i : Instr} {s t u : State} (e : Effect i s t) (e' : Effect i s u) : t = u :=
  Host.Outcome.next.inj (e.exec.symm.trans e'.exec)

section Completed

variable {i : Instr} {s t : State} (e : Effect i s t) (ok : ∀ k, t.run ≠ .faulted k)
include e ok

/-- An instruction that completes had no cause to fault. -/
theorem Effect.not_faultCause (k : FaultKind) : ¬ FaultCause i s k := fun c =>
  ok k (e.unique (.fault c) ▸ rfl)

/-- With `sets_pc` = 0 the loop moves `pc` past the instruction (R184). -/
theorem Effect.pc_of_not_setsPc (own : i.setsPc = false) : t.pc = (s.advance i.operands.length).pc := by
  cases e with
  | fault c => exact absurd rfl (ok _)
  | binary a b r q op =>
    have two : ∀ p ∈ binaryOps a b, p.1.operands = [a, b] := by simp [binaryOps, Instr.operands]
    rw [two _ op]
    rfl
  | call | ret => cases own
  | jump a r ha taken => obtain rfl | ⟨rfl, -⟩ | ⟨rfl, -⟩ := taken <;> cases own
  | skip a r ha notTaken => obtain ⟨rfl, -⟩ | ⟨rfl, -⟩ := notTaken <;> cases own
  | _ => rfl

/-- A call and every taken jump go to the register's address. -/
theorem Effect.pc_of_jump {a : Byte} {r : Fin 8} (ha : a.toNat = r.val)
    (taken : i = .jmp a ∨ i = .call a ∨ i = .jeq a ∧ s.fl.e = true ∨ i = .jne a ∧ s.fl.e = false) :
    t.pc = zext9 (s.reg r) := by
  obtain hi | rfl | hi := taken
  · rw [e.unique (.jump a r ha (.inl hi)), State.setPc_pc]
  · have low : s.pc.toNat + 2 ≤ 255 := Nat.le_of_not_lt fun high => e.not_faultCause ok _ (.returnAddress a r ha high)
    have nonzero : s.sp ≠ 0 := fun zero => e.not_faultCause ok _ (.call a r ha low zero)
    rw [e.unique (.call a r ha low nonzero), State.setPc_pc]
  · rw [e.unique (.jump a r ha (.inr hi)), State.setPc_pc]

/-- RET goes to the address it popped. -/
theorem Effect.pc_of_ret (hi : i = .ret) : t.pc = zext9 (s.readMem s.sp.toNat) := by
  subst hi
  have below : s.sp ≠ 255 := fun top => e.not_faultCause ok _ (.ret top)
  rw [e.unique (.ret below), State.setPc_pc]

end Completed

/-- Settles O17: the opcode byte at `pc` says what `sets_pc` and the operand count are; the lemmas above say where the
instruction's effect leaves `pc`. -/
theorem pcAdvancesOrGoesToTheTarget : Obligations.PcAdvancesOrGoesToTheTarget := by
  intro s t i h hc
  obtain ⟨hr, ⟨hnone, -⟩ | ⟨j, hj, e⟩⟩ := step_effect h
  · simp [hc] at hnone
  obtain rfl : j = i := Option.some.inj (hj.symm.trans hc)
  obtain ⟨hpc, hop⟩ := State.opcode_of_current hc
  obtain ⟨hcount, -, hown, -⟩ := Laws.RowFields.all j
  have advance_pc (n : Nat) (hn : n ≤ 2) : (s.advance n).pc.toNat = s.pc.toNat + n + 1 :=
    State.advance_pc_toNat (Nat.le_succ_of_le hpc) hn
  rw [hop, hown, ← opcodeFields_operandCount]
  refine ⟨e.exec, fun ⟨k, hk⟩ => ?_, fun ok => ⟨fun own => ?_, setsPc_iff j,
    fun a r ha => ⟨fun taken => ?_, fun notTaken => ?_⟩, fun hi => ?_⟩⟩
  · obtain ⟨-, ht⟩ | ⟨-, ht⟩ | ⟨-, _, rfl⟩ := e.run_cases
    · simp [ht, hr] at hk
    · simp [ht] at hk
    · rfl
  · rw [e.pc_of_not_setsPc ok own, advance_pc _ (operands_length_le j), ← hcount]
    rfl
  · rw [e.pc_of_jump ok ha taken, zext9_toNat]
  · rw [e.unique (.skip a r ha notTaken), advance_pc 1 (by decide)]
  · rw [e.pc_of_ret ok hi, zext9_toNat]

end Sys2Proof.Machine

/-! # Family 60_exceptions.md: when UnsupportedOperation is raised -/

namespace Sys2Proof.Machine

/-! ## The opcode map and the dispatch -/

/-- The dispatch yields nothing exactly for a byte outside the opcode map, whatever the operand bytes are (R183). -/
theorem select_eq_none_iff {hasDiv : Bool} {ir opa opb : Byte} :
    select hasDiv ir opa opb = none ↔ ir ∉ opcodeRows hasDiv := by
  unfold select
  split
  case h_4 => cases hasDiv <;> simp [opcodeRows]
  case h_22 => cases hasDiv <;> simp_all [opcodeRows]
  all_goals simp [opcodeRows]

theorem opcodeRows_nodup (hasDiv : Bool) : (opcodeRows hasDiv).Nodup := by
  cases hasDiv <;> decide

/-- The byte values outside a list without repetitions are 256 less its length. -/
theorem length_bytes_not_mem {rows : List Byte} (nodup : rows.Nodup) :
    ((List.range 256).filter fun n => decide (BitVec.ofNat 8 n ∉ rows)).length = 256 - rows.length := by
  have hperm : ((List.range 256).filter fun n => decide (BitVec.ofNat 8 n ∈ rows)).Perm (rows.map BitVec.toNat) := by
    refine (List.perm_ext_iff_of_nodup (List.nodup_range.filter _) (nodup.map fun _ _ => BitVec.eq_of_toNat_eq)).mpr
      fun n => ?_
    rw [List.mem_filter, List.mem_range, decide_eq_true_iff, List.mem_map]
    constructor
    · rintro ⟨hn, hmem⟩
      exact ⟨_, hmem, (BitVec.toNat_ofNat n 8).trans (Nat.mod_eq_of_lt hn)⟩
    · rintro ⟨b, hmem, rfl⟩
      exact ⟨b.isLt, by rwa [BitVec.ofNat_toNat, BitVec.setWidth_eq]⟩
  have hlen := List.length_eq_length_filter_add (l := List.range 256) fun n => decide (BitVec.ofNat 8 n ∈ rows)
  simp only [hperm.length_eq, List.length_map, List.length_range, ← decide_not] at hlen
  omega

/-! ## The faults of decoding -/

/-- The checks of `decode` in their order: the count, the operand bytes, the map. -/
theorem decode_cons_unsupported_iff {hasDiv : Bool} {ir : Byte} {rest : List Byte} :
    (∃ e, decode hasDiv (ir :: rest) = .error e ∧ decodeFault e = .unsupportedOperation) ↔
      operandCount ir = 3 ∨ operandCount ir ≤ rest.length ∧ ir ∉ opcodeRows hasDiv := by
  rw [decode]
  split_ifs with hcount hshort
  · simp [hcount, decodeFault]
  · simp [hcount, decodeFault, Nat.not_le.mpr hshort]
  · rw [← select_eq_none_iff (opa := rest.getD 0 0) (opb := rest.getD 1 0)]
    split
    · next hsel =>
      rw [hsel]
      simp [hcount]
    · next hsel =>
      rw [hsel]
      simp [Nat.le_of_not_lt hshort, decodeFault]

/-- Fetch, operand fetch and dispatch raise `UnsupportedOperation` in the two cases of R202. -/
theorem State.decode_unsupported_iff (s : State) :
    (∃ e, decode s.cfg.hasDiv s.fetchBytes = .error e ∧ decodeFault e = .unsupportedOperation) ↔
      s.pc.toNat ≤ 255 ∧
        ((s.readMem s.pc.toNat).toNat / 64 = 3 ∨
          s.pc.toNat + (s.readMem s.pc.toNat).toNat / 64 ≤ 255 ∧ s.readMem s.pc.toNat ∉ opcodeRows s.cfg.hasDiv) := by
  by_cases hpc : s.pc.toNat ≤ 255
  · rw [State.fetchBytes_head hpc, decode_cons_unsupported_iff, ← opcodeFields_operandCount, List.length_map,
      List.length_range', ← operandCount]
    have hfits (count : Nat) (hle : count ≤ 3) (h3 : count ≠ 3) :
        count ≤ min 2 (255 - s.pc.toNat) ↔ s.pc.toNat + count ≤ 255 := by omega
    rw [and_iff_right hpc]
    exact or_congr_right' fun h3 => and_congr_left' (hfits _ (operandCount_le _) h3)
  · simp [State.fetchBytes_past (Nat.lt_of_not_le hpc), decode, decodeFault, hpc]

/-! ## The faults of a step -/

/-- A running core that an instruction leaves faulted had a cause for that fault. -/
theorem Effect.faultCause {i : Instr} {s t : State} {k : FaultKind} (e : Effect i s t) (hr : s.run = .running)
    (ht : t.run = .faulted k) : FaultCause i s k := by
  cases e with
  | fault c =>
    cases ht
    exact c
  | hlt => cases ht
  | _ => exact nomatch hr.symm.trans ht

theorem FaultCause.ne_unsupportedOperation {i : Instr} {s : State} {k : FaultKind} (c : FaultCause i s k) :
    k ≠ .unsupportedOperation := by
  cases c <;> exact nofun

/-- No instruction's own rule raises `UnsupportedOperation`: a step does exactly when decoding does. -/
theorem step_unsupported_iff {s t : State} (h : step s = .next t) :
    t.run = .faulted .unsupportedOperation ↔
      ∃ e, decode s.cfg.hasDiv s.fetchBytes = .error e ∧ decodeFault e = .unsupportedOperation := by
  obtain ⟨hr, ⟨e, hd, rfl⟩ | ⟨i, rest, hd, hx⟩⟩ := step_next h
  · simp [hd]
  · have hne : t.run ≠ .faulted .unsupportedOperation := fun ht =>
      ((exec_effect hx).faultCause hr ht).ne_unsupportedOperation rfl
    simp [hd, hne]

/-- Every byte stands at every `pc` of some running core, with and without DIV. -/
theorem exists_step_at_byte (p : PcWord) (b : Byte) (hasDiv : Bool) :
    ∃ s t : State, s.pc = p ∧ s.readMem p.toNat = b ∧ s.cfg.hasDiv = hasDiv ∧ step s = .next t := by
  obtain ⟨t, h⟩ := (stepExistsExactlyWhileRunning.1
    (((State.resetWith ⟨hasDiv⟩ []).writeMem p.toNat b).setPc p)).mpr rfl
  refine ⟨_, t, rfl, ?_, rfl, h⟩
  rw [State.setPc_readMem, State.readMem_writeMem_self]

/-- Settles O20: a step raises the fault exactly when decoding does, which is in the two cases; a reset core with the byte
stored at `pc` meets either of them; the bytes outside the map are 256 less its 20 rows, 21 with DIV. -/
theorem unsupportedOperationIsRaisedInExactlyTwoCases : Obligations.UnsupportedOperationIsRaisedInExactlyTwoCases := by
  have hiff {s t : State} (h : step s = .next t) := (step_unsupported_iff h).trans s.decode_unsupported_iff
  refine ⟨fun _ _ => hiff, fun p b hasDiv hp hb hcase => ?_, length_bytes_not_mem (opcodeRows_nodup false),
    length_bytes_not_mem (opcodeRows_nodup true)⟩
  obtain ⟨s, t, rfl, rfl, rfl, h⟩ := exists_step_at_byte p b hasDiv
  exact ⟨s, t, rfl, rfl, rfl, h, (hiff h).mpr ⟨hp, hcase.imp_right fun fits => ⟨fits, hb⟩⟩⟩

end Sys2Proof.Machine

/-! # Family 70_reset_and_hazards.md: the state after reset -/

namespace Sys2Proof.Machine

/-- 10_state.md R41: register 7 is the only register that reset does not clear. -/
theorem State.reg_resetWith (cfg : Config) (memInit : Memory) (i : Fin 8) :
    (State.resetWith cfg memInit).reg i = if i = 7 then r7Reset else 0 := by
  fin_cases i <;> rfl

/-- Settles O1: every piece but the registers is the value `State.resetWith` gives its field; the registers are
`State.reg_resetWith`, where an index of at most 6 is not 7. -/
theorem resetPutsEveryPieceAtItsValue : Obligations.ResetPutsEveryPieceAtItsValue := by
  intro cfg memInit
  have hzero (i : Fin 8) (hi : i.val ≤ 6) : (State.resetWith cfg memInit).reg i = 0 := by
    rw [State.reg_resetWith, if_neg (by omega)]
  have hseven : (State.resetWith cfg memInit).reg 7 = r7Reset := State.reg_resetWith cfg memInit 7
  exact ⟨rfl, rfl, rfl, hzero, hseven, rfl, rfl, fun _ => rfl⟩

end Sys2Proof.Machine

/-! # Decoder and encoder (30_encoding.md): an instruction has one encoding -/

namespace Sys2Proof.Machine

/-! ## The dispatch and the decoder, inverted -/

/-- What the dispatch says of its answer, besides `opcode_of_select`: its operands are the announced ones of the two bytes,
and DIV comes only with `HAS_DIV` (43_execution_loop.md R187). -/
theorem select_some {hasDiv : Bool} {ir opa opb : Byte} {i : Instr} (h : select hasDiv ir opa opb = some i) :
    i.operands = [opa, opb].take (operandCount ir) ∧ ∀ a b, i = .div a b → hasDiv = true := by
  unfold select at h
  split at h
  case h_4 =>
    split_ifs at h with hdiv
    cases h
    exact ⟨rfl, fun _ _ _ => hdiv⟩
  case h_22 => cases h
  all_goals
    cases h
    exact ⟨rfl, nofun⟩

/-- The operand bytes the decoder hands to the dispatch are the first ones, as far as the opcode byte announces them. -/
theorem take_getD_getD {tail : List Byte} {n : Nat} (hn : n ≤ 2) (hlen : n ≤ tail.length) :
    [tail.getD 0 0, tail.getD 1 0].take n = tail.take n := by
  match n, tail with
  | 0, _ => rfl
  | 1, _ :: _ => rfl
  | 2, _ :: _ :: _ => rfl

/-- What decodes to an instruction is its encoding and what is left over, and nothing else does; DIV needs `HAS_DIV`. -/
theorem decode_ok_iff {hasDiv : Bool} {bytes rest : List Byte} {i : Instr} :
    decode hasDiv bytes = .ok (i, rest) ↔ bytes = encode i ++ rest ∧ ∀ a b, i = .div a b → hasDiv = true := by
  refine ⟨fun h => ?_, fun ⟨hbytes, hdiv⟩ => hbytes ▸ decode_encode_append hdiv rest⟩
  cases bytes with
  | nil => cases h
  | cons ir tail =>
    rw [decode] at h
    split_ifs at h with hcount hshort
    split at h
    · next hsel =>
      cases h
      obtain ⟨hops, hdiv⟩ := select_some hsel
      have hle : operandCount ir ≤ 2 := by have := operandCount_le ir; omega
      rw [take_getD_getD hle (Nat.le_of_not_lt hshort)] at hops
      exact ⟨by rw [encode, opcode_of_select hsel, hops, List.cons_append, List.take_append_drop], hdiv⟩
    · cases h

/-- Without `HAS_DIV` the byte of DIV is in no row (30_encoding.md R89). -/
theorem decode_encode_div_append (a b : Byte) (rest : List Byte) :
    decode false (encode (.div a b) ++ rest) = .error .unknownOpcode := by
  have hcount : operandCount (Instr.div a b).opcode = (Instr.div a b).operands.length := (Laws.RowFields.div a b).1
  have hsel (opa opb : Byte) : select false (Instr.div a b).opcode opa opb = none := rfl
  rw [encode, List.cons_append, decode, hcount, if_neg (by simp [Instr.operands]), if_neg (by simp), hsel]

/-- Settles O12: each part is the decoder read from right to left, `decode_encode_append`. -/
theorem decodeOfEncodeIsTheInstruction : Obligations.DecodeOfEncodeIsTheInstruction :=
  ⟨fun _ => decode_encode_append fun _ _ _ => rfl,
    fun _ rest hne => decode_encode_append (fun a b h => absurd h (hne a b)) rest,
    decode_encode_div_append⟩

/-- Settles O13: the decoder read from left to right, `decode_ok_iff`. -/
theorem decodedBytesAreTheEncoding : Obligations.DecodedBytesAreTheEncoding := by
  intro hasDiv bytes i rest h
  obtain ⟨hbytes, hdiv⟩ := decode_ok_iff.mp h
  exact ⟨hbytes, fun hfalse a b hi => Bool.false_ne_true (hfalse.symm.trans (hdiv a b hi))⟩

/-- Settles O11: each word is its bytes run through the decoder. -/
theorem sampleWordsDecode : Obligations.SampleWordsDecode :=
  ⟨rfl, rfl, rfl, rfl, rfl, rfl, rfl, rfl, rfl, rfl⟩

end Sys2Proof.Machine

/-! # The invariant of the machine (10_state.md sections 3 and 5, 20_memory.md section 1) -/

namespace Sys2Proof.Machine

/-! ## Where a step leaves `pc` -/

/-- A core dispatches to the instruction whose encoding the fetched bytes begin with, to DIV only when `HAS_DIV`. -/
theorem State.current_eq_some_iff {s : State} {i : Instr} :
    s.current = some i ↔
      (∃ rest, s.fetchBytes = encode i ++ rest) ∧ ∀ a b, i = .div a b → s.cfg.hasDiv = true := by
  rw [← exists_and_right]
  refine Iff.trans ?_ (exists_congr fun rest => decode_ok_iff)
  match hd : decode s.cfg.hasDiv s.fetchBytes with
  | .error e => simp [State.current_of_decode_error hd]
  | .ok (j, rest) => simp [State.current_of_decode_ok hd]

/-- All bytes of the dispatched instruction are inside memory (43_execution_loop.md R181, R182). -/
theorem State.pc_add_length_le {s : State} {i : Instr} (h : s.current = some i) :
    s.pc.toNat + (encode i).length ≤ 256 := by
  obtain ⟨⟨rest, hbytes⟩, -⟩ := State.current_eq_some_iff.mp h
  have hlen := s.fetchBytes_length
  have hpos : (encode i).length = i.operands.length + 1 := rfl
  rw [hbytes, List.length_append] at hlen
  simp only [memSize] at hlen
  omega

/-- The two operand bytes of an instruction of the ALU shape: it reads both and writes the first (40_alu.md R110). -/
theorem operands_of_mem_binaryOps {i : Instr} {f : Byte → Byte → Byte} {a b : Byte} (op : (i, f) ∈ binaryOps a b) :
    i.operands = [a, b] ∧ i.readsRegs = [a, b] ∧ i.writesRegs = [a] := by
  have all : ∀ p ∈ binaryOps a b, p.1.operands = [a, b] ∧ p.1.readsRegs = [a, b] ∧ p.1.writesRegs = [a] := by
    simp [binaryOps, Instr.operands, Instr.readsRegs, Instr.writesRegs]
  exact all _ op

/-- An instruction leaves `pc` alone, or moves it past the instruction, or, with `sets_pc` = 1, puts a byte there. -/
theorem Effect.pc_cases {i : Instr} {s t : State} (e : Effect i s t) :
    (∃ k, t = s.setRun (.faulted k)) ∨ t.pc = (s.advance i.operands.length).pc ∨
      i.setsPc = true ∧ ∃ v : Byte, t.pc = zext9 v := by
  cases e with
  | fault c => exact .inl ⟨_, rfl⟩
  | binary a b r q op ha hb =>
    rw [(operands_of_mem_binaryOps op).1]
    exact .inr (.inl rfl)
  | call | ret => exact .inr (.inr ⟨rfl, _, rfl⟩)
  | jump a r ha taken =>
    have own : i.setsPc = true := by obtain rfl | ⟨rfl, -⟩ | ⟨rfl, -⟩ := taken <;> rfl
    exact .inr (.inr ⟨own, _, rfl⟩)
  | skip a r ha notTaken =>
    obtain ⟨rfl, -⟩ | ⟨rfl, -⟩ := notTaken <;> exact .inr (.inl rfl)
  | _ => exact .inr (.inl rfl)

/-- Past the dispatched instruction `pc` does not wrap (43_execution_loop.md R184). -/
theorem State.advance_pc_of_current {s : State} {i : Instr} (h : s.current = some i) :
    (s.advance i.operands.length).pc.toNat = s.pc.toNat + (encode i).length := by
  have hfits := State.pc_add_length_le h
  exact State.advance_pc_toNat (by omega) (operands_length_le i)

/-- A step leaves `pc` in 0..256 (10_state.md R26, R28). -/
theorem step_pc_le {s t : State} (hs : s.pc.toNat ≤ 256) (h : step s = .next t) : t.pc.toNat ≤ 256 := by
  obtain ⟨-, ⟨-, k, rfl⟩ | ⟨i, hc, e⟩⟩ := step_effect h
  · exact hs
  · obtain ⟨k, rfl⟩ | ht | ⟨-, v, ht⟩ := e.pc_cases
    · exact hs
    · rw [ht, State.advance_pc_of_current hc]
      exact State.pc_add_length_le hc
    · rw [ht, zext9_toNat]
      exact v.isLt.le

/-! ## What a step stores -/

/-- An instruction leaves memory alone, or it is PUSH or CALL and stores one byte below the stack pointer. -/
theorem Effect.mem_cases {i : Instr} {s t : State} (e : Effect i s t) :
    t.mem = s.mem ∨
      s.sp ≠ 0 ∧ (∃ a, i = .push a ∨ i = .call a) ∧ ∃ v, t.mem = s.mem.write (s.sp.toNat - 1) v := by
  cases e with
  | push a r ha nonzero => exact .inr ⟨nonzero, ⟨a, .inl rfl⟩, _, rfl⟩
  | call a r ha low nonzero => exact .inr ⟨nonzero, ⟨a, .inr rfl⟩, _, rfl⟩
  | _ => exact .inl rfl

/-- A step keeps memory in its canonical form: the cell below the stack pointer is inside 0..255. -/
theorem step_mem_wf {s t : State} (hs : s.mem.wf) (h : step s = .next t) : t.mem.wf := by
  obtain ⟨-, ⟨-, k, rfl⟩ | ⟨i, -, e⟩⟩ := step_effect h
  · exact hs
  · obtain ht | ⟨-, -, v, ht⟩ := e.mem_cases <;> rw [ht]
    · exact hs
    · exact Memory.wf_write hs (pushAddress_lt s) v

/-- A step keeps the flags legal: CMP sets exactly one, and nothing else writes them. -/
theorem step_fl_legal {s t : State} (hs : s.fl.legal) (h : step s = .next t) : t.fl.legal := by
  obtain ht | ⟨-, -, u, v, -, ht⟩ := step_fl_cases h <;> rw [ht]
  · exact hs
  · exact .inr (Flags.compare_oneHot u v)

/-- Settles O31, clause by clause of the invariant. -/
theorem everyStepKeepsTheInvariant : Obligations.EveryStepKeepsTheInvariant := fun _ _ hs h =>
  ⟨step_mem_wf hs.memory h, step_pc_le hs.counter h, step_fl_legal hs.flags h⟩

/-! ## The invariant in every run -/

theorem State.resetWith_inv (cfg : Config) {memInit : Memory} (hwf : memInit.wf) : (State.resetWith cfg memInit).Inv :=
  ⟨hwf, Nat.zero_le 256, .inl rfl⟩

/-- Settles O32: `pc` and the flags are reset's, memory is `MEM_INIT`. -/
theorem resetMeetsTheInvariant : Obligations.ResetMeetsTheInvariant :=
  ⟨fun cfg _ hwf => State.resetWith_inv cfg hwf, State.resetWith_inv Config.default Memory.wf_reset⟩

/-- Loading at most 256 words from address 0 keeps the invariant. -/
theorem State.placeProgram_inv {s : State} {words : List Byte} (hs : s.Inv) (hlen : words.length ≤ memSize) :
    (s.placeProgram words).Inv :=
  ⟨Memory.wf_writeList hs.memory (by rwa [loadBase, Nat.zero_add]), hs.counter, hs.flags⟩

/-- What holds of a state and is kept by every step holds after any number of steps. -/
theorem runFor_induction {P : State → Prop} (keep : ∀ s t, P s → step s = .next t → P t) (n : Nat) {s : State}
    (hs : P s) : P (runFor n s) := by
  induction n generalizing s with
  | zero => exact hs
  | succ n ih =>
    rw [runFor]
    split
    · next t h => exact ih (keep s t hs h)
    · exact hs
    · exact hs

/-- Settles O33: reset meets the invariant, the load keeps it, and so does every step. -/
theorem bootedRunsMeetTheInvariant : Obligations.BootedRunsMeetTheInvariant := by
  intro cfg memInit words h n hwf hboot
  obtain ⟨-, hlen, rfl⟩ := Session.load_next.mp hboot
  exact runFor_induction everyStepKeepsTheInvariant n (State.placeProgram_inv (State.resetWith_inv cfg hwf) hlen)

/-! ## The canonical form of memory -/

/-- With rising addresses a cell reads what its entry says. -/
theorem Memory.read_of_mem {m : Memory} (rising : m.Pairwise fun p q => p.1 < q.1) {a : Nat} {v : Byte} (h : (a, v) ∈ m) :
    m.read a = v := by
  induction m with
  | nil => cases h
  | cons c m ih =>
    rw [List.pairwise_cons] at rising
    obtain rfl | h := List.mem_cons.mp h
    · exact if_pos rfl
    · have hne : c.1 ≠ a := (rising.1 _ h).ne
      rw [Memory.read_cons, if_neg hne, ih rising.2 h]

/-- The entries of a canonical memory are the cells that do not read as unlisted, with what they read. -/
theorem Memory.mem_iff_of_wf {m : Memory} (hm : m.wf) {a : Nat} {v : Byte} :
    (a, v) ∈ m ↔ m.read a = v ∧ v ≠ Memory.unlisted := by
  refine ⟨fun h => ⟨Memory.read_of_mem hm.1 h, (hm.2 _ h).2⟩, fun ⟨hv, hne⟩ => ?_⟩
  subst hv
  exact (m.read_eq_or_mem a).resolve_left hne

/-- Canonical memories that read alike have the same entries, and rising addresses leave one order for them. -/
theorem Memory.eq_of_read_eq {m n : Memory} (hm : m.wf) (hn : n.wf) (h : ∀ a, m.read a = n.read a) : m = n := by
  have irrefl : Std.Irrefl fun p q : Host.Cell => p.1 < q.1 := ⟨fun p => lt_irrefl p.1⟩
  have antisymm : Std.Antisymm fun p q : Host.Cell => p.1 < q.1 := ⟨fun p q hpq hqp => absurd hpq hqp.not_gt⟩
  refine List.Pairwise.eq_of_mem_iff hm.1 hn.1 fun (a, v) => ?_
  rw [Memory.mem_iff_of_wf hm, Memory.mem_iff_of_wf hn, h]

/-- Settles O34: a content is read from the memory it was stored to cell by cell. -/
theorem canonicalMemoriesAreTheContents : Obligations.CanonicalMemoriesAreTheContents := by
  refine ⟨fun m n hm hn => Memory.eq_of_read_eq hm hn, fun content => ?_⟩
  have hwf : (Memory.writeList [] 0 ((List.range memSize).map content)).wf := Memory.wf_writeList Memory.wf_nil (by simp)
  refine ⟨_, hwf, fun a ha => ?_⟩
  rw [Memory.read_writeList, if_pos (Nat.zero_le a)]
  simp [List.getD, memSize, ha]

end Sys2Proof.Machine

/-! # The host's side (00_scope.md section 6): load, the terminal states, the exit status, the output line -/

namespace Sys2Proof.Machine

/-! ## Load -/

/-- A load accepted at once after reset: the words from address 0, `MEM_INIT` above them. -/
theorem Session.boot_of_length_le (cfg : Config) (memInit : Memory) {words : List Byte} (hlen : words.length ≤ memSize) :
    Session.boot cfg memInit words = .next ⟨(State.resetWith cfg memInit).placeProgram words, false⟩ :=
  Session.load_next.mpr ⟨rfl, hlen, rfl⟩

/-- The cells after a program is placed (00_scope.md R14). -/
theorem State.readMem_placeProgram (s : State) (words : List Byte) (a : Nat) :
    (s.placeProgram words).readMem a = words.getD a (s.readMem a) := by
  have h := Memory.read_writeList s.mem loadBase words a
  rwa [loadBase, if_pos (Nat.zero_le a), Nat.sub_zero] at h

/-- A running core can be stepped, and the session steps with it. -/
theorem Session.exists_step {h : Session} (hr : h.core.run = .running) :
    ∃ g, h.step = .next g ∧ Machine.step h.core = .next g.core := by
  obtain ⟨t, ht⟩ := (stepExistsExactlyWhileRunning.1 h.core).mpr hr
  exact ⟨⟨t, true⟩, Session.step_next.mpr ⟨ht, rfl⟩, ht⟩

/-- Settles O2: what a load accepts and leaves is `Session.load_next`, what a step records is `Session.step_next`. -/
theorem loadPlacesTheProgramOrIsRefused : Obligations.LoadPlacesTheProgramOrIsRefused := by
  refine ⟨fun cfg memInit words hlen =>
      ⟨_, Session.boot_of_length_le cfg memInit hlen, fun i hi => ?_, fun a ha => ?_, rfl⟩,
    fun cfg memInit _ => Session.boot_too_long cfg memInit,
    fun h words => ⟨fun ⟨g, hg⟩ => ?_, fun ⟨hb, hlen⟩ => ?_⟩,
    fun h g words hg => ?_, fun h => Session.exists_step, fun h g words hstep => ?_⟩
  · rw [State.readMem_placeProgram, List.getD_eq_getElem _ _ hi]
  · rw [State.readMem_placeProgram, List.getD_eq_default _ _ ha]
    rfl
  · obtain ⟨hb, hlen, -⟩ := Session.load_next.mp hg
    exact ⟨hb, hlen⟩
  · exact ⟨_, Session.load_next.mpr ⟨hb, hlen, rfl⟩⟩
  · obtain ⟨hb, -, rfl⟩ := Session.load_next.mp hg
    exact ⟨hb, rfl⟩
  · obtain ⟨-, hb⟩ := Session.step_next.mp hstep
    exact Session.load_begun hb words

/-! ## Terminal states and the parameter -/

/-- Settles O5: a step that exists is a step of a running core, so a run takes none from a terminal state. -/
theorem terminalStatesAreFrozen : Obligations.TerminalStatesAreFrozen := by
  intro s n hr
  have none (t : State) : step s ≠ .next t := fun h => hr (step_next h).1
  refine ⟨?_, none⟩
  cases n with
  | zero => rfl
  | succ n =>
    rw [runFor]
    split
    · next t h => exact absurd h (none t)
    · rfl
    · rfl

/-- No instruction touches the parameter. -/
theorem Effect.cfg_eq {i : Instr} {s t : State} (e : Effect i s t) : t.cfg = s.cfg := by
  cases e <;> rfl

/-- Settles O6: neither a fault nor the effect of an instruction touches the parameter. -/
theorem parameterNeverChanges : Obligations.ParameterNeverChanges := by
  intro s t h
  obtain ⟨-, ⟨-, k, rfl⟩ | ⟨i, -, e⟩⟩ := step_effect h
  · rfl
  · exact e.cfg_eq

/-- Settles O7: the table of the codes. -/
theorem exitStatusTellsHaltFromEachFault : Obligations.ExitStatusTellsHaltFromEachFault :=
  ⟨rfl, rfl, rfl, rfl, rfl, rfl, rfl⟩

/-! ## What the host shows -/

/-- The digits of a byte are decimal digits, their value is the byte, and 0 leads only where it is the one digit. -/
theorem decimalDigits_spec (v : Byte) :
    (∀ d ∈ decimalDigits v, d ≤ 9) ∧ (decimalDigits v).foldl (fun n d => 10 * n + d) 0 = v.toNat ∧
      decimalDigits v ≠ [] ∧ ((decimalDigits v).head? = some 0 → decimalDigits v = [0]) := by
  have hlt := v.isLt
  unfold decimalDigits
  split_ifs with h10 h100
  all_goals
    simp
    omega

/-- Settles O8: the line is made of the digits of `decimalDigits`. -/
theorem outputLineIsThePlainDecimal : Obligations.OutputLineIsThePlainDecimal := fun v =>
  ⟨decimalDigits v, rfl, decimalDigits_spec v⟩

/-- Settles O9, for each of the eight values of the three flags. -/
theorem packedFlagsHaveTheirBits : Obligations.PackedFlagsHaveTheirBits := by
  rintro ⟨l, g, e⟩
  revert l g e
  decide

end Sys2Proof.Machine

/-! # The step as the execution loop (43_execution_loop.md sections 2 and 3) -/

namespace Sys2Proof.Machine

/-! ## The instruction at `pc` -/

/-- Inside memory the fetched bytes begin with any bytes that stand at `pc` and above. -/
theorem State.fetchBytes_of_readMem {s : State} {bytes : List Byte} (hlen : bytes.length ≤ 3)
    (hfits : s.pc.toNat + bytes.length ≤ 256)
    (hread : ∀ (k : Nat) (h : k < bytes.length), s.readMem (s.pc.toNat + k) = bytes[k]) :
    ∃ rest, s.fetchBytes = bytes ++ rest := by
  have hprefix : bytes <+: s.fetchBytes := by
    refine List.prefix_iff_getElem.mpr ⟨?_, fun k hk => ?_⟩
    · simp only [State.fetchBytes_length, memSize]
      omega
    · simp [State.fetchBytes, hread k hk]
  exact hprefix.imp fun _ => Eq.symm

/-- A running core runs the instruction whose encoding the fetched bytes begin with. -/
theorem step_of_fetchBytes {s : State} {i : Instr} {rest : List Byte} (hr : s.run = .running)
    (hbytes : s.fetchBytes = encode i ++ rest) (hdiv : ∀ a b, i = .div a b → s.cfg.hasDiv = true) : step s = exec i s :=
  step_of_decode_ok hr (decode_ok_iff.mpr ⟨hbytes, hdiv⟩)

/-- Settles O16: bytes that are the encoding are fetched, and what is fetched decodes. -/
theorem stepRunsTheDecodedInstruction : Obligations.StepRunsTheDecodedInstruction := by
  refine ⟨fun s i hr hdiv hfits hread => ?_, fun s i rest => step_of_decode_ok⟩
  have hlen : (encode i).length ≤ 3 := Nat.succ_le_succ (operands_length_le i)
  obtain ⟨rest, hbytes⟩ := State.fetchBytes_of_readMem hlen hfits hread
  exact step_of_fetchBytes hr hbytes hdiv

/-- Where the host places three bytes there is room for them. -/
theorem State.placeAtFetch_pc_le (s : State) (bytes : List Byte) : (s.placeAtFetch bytes).pc.toNat + 3 ≤ 256 := by
  simp only [State.placeAtFetch]
  split
  · assumption
  · decide

theorem State.readMem_placeAtFetch (s : State) (bytes : List Byte) (k : Nat) (hk : k < bytes.length) :
    (s.placeAtFetch bytes).readMem ((s.placeAtFetch bytes).pc.toNat + k) = bytes[k] := by
  have h := Memory.read_writeList s.mem (s.placeAtFetch bytes).pc.toNat bytes ((s.placeAtFetch bytes).pc.toNat + k)
  rwa [if_pos (Nat.le_add_right _ k), Nat.add_sub_cancel_left, List.getD_eq_getElem _ _ hk] at h

/-- The next fetch sees exactly the three placed bytes. -/
theorem State.fetchBytes_placeAtFetch (s : State) {bytes : List Byte} (hlen : bytes.length = 3) :
    (s.placeAtFetch bytes).fetchBytes = bytes := by
  have hpc := s.placeAtFetch_pc_le bytes
  obtain ⟨rest, hbytes⟩ := State.fetchBytes_of_readMem hlen.le (by rwa [hlen]) (s.readMem_placeAtFetch bytes)
  have hall := (s.placeAtFetch bytes).fetchBytes_length
  simp only [hbytes, List.length_append, hlen, memSize] at hall
  rw [hbytes, List.length_eq_zero_iff.mp (show rest.length = 0 by omega), List.append_nil]

/-- Placing DIV's byte gives the machine DIV (log 5). -/
theorem State.placeAtFetch_hasDiv (s : State) {bytes : List Byte} (h : bytes.head? = some divOpcode) :
    (s.placeAtFetch bytes).cfg.hasDiv = true := by
  simp [State.placeAtFetch, h]

/-- Settles O3: the placed bytes are fetched, and if they are DIV's the placing gave the machine DIV. -/
theorem placedWordIsTheNextStep : Obligations.PlacedWordIsTheNextStep := by
  intro s nbits w i rest h
  obtain ⟨hbytes, -⟩ := decode_ok_iff.mp h
  refine step_of_fetchBytes rfl ((s.fetchBytes_placeAtFetch rfl).trans hbytes) fun a b hi => ?_
  exact s.placeAtFetch_hasDiv (by rw [hbytes, hi]; rfl)

/-! ## The checks of the loop in their order -/

/-- Different instructions have different encodings. -/
theorem encode_injective {i j : Instr} (h : encode i = encode j) : i = j := by
  have hi : decode true (encode i ++ []) = .ok (i, []) := decode_encode_append (fun _ _ _ => rfl) []
  have hj : decode true (encode j ++ []) = .ok (j, []) := decode_encode_append (fun _ _ _ => rfl) []
  rw [h, hj] at hi
  injection hi with hi
  exact (congrArg Prod.fst hi).symm

/-- The dispatch does not depend on operand bytes that the opcode byte does not announce (30_encoding.md R90). -/
theorem select_congr {hasDiv : Bool} {ir opa opb opa' opb' : Byte}
    (h : [opa, opb].take (operandCount ir) = [opa', opb'].take (operandCount ir)) :
    select hasDiv ir opa opb = select hasDiv ir opa' opb' := by
  match hi : select hasDiv ir opa opb, hj : select hasDiv ir opa' opb' with
  | none, none => rfl
  | none, some j => simp [select_eq_none_iff.mpr (select_eq_none_iff.mp hi)] at hj
  | some i, none => simp [select_eq_none_iff.mpr (select_eq_none_iff.mp hj)] at hi
  | some i, some j =>
    have hops : i.operands = j.operands := by rw [(select_some hi).1, (select_some hj).1, h]
    have hcode : encode i = encode j := by rw [encode, encode, opcode_of_select hi, opcode_of_select hj, hops]
    rw [encode_injective hcode]

/-- Fetch and operand fetch inside memory hand the byte at `pc` and its operand bytes to the dispatch, whose instruction is
the step; no instruction is `UnsupportedOperation` (43_execution_loop.md R181 to R183). -/
theorem step_of_fits {s : State} (hr : s.run = .running) (hpc : s.pc.toNat ≤ 255)
    (hcount : operandCount (s.readMem s.pc.toNat) ≠ 3)
    (hfits : s.pc.toNat + operandCount (s.readMem s.pc.toNat) ≤ 255) :
    step s = (select s.cfg.hasDiv (s.readMem s.pc.toNat) (s.readMem (s.pc.toNat + 1)) (s.readMem (s.pc.toNat + 2))).elim
      (takeFault .unsupportedOperation s) (exec · s) := by
  have hle : operandCount (s.readMem s.pc.toNat) ≤ 2 := by have := operandCount_le (s.readMem s.pc.toNat); omega
  have hlen : ((List.range' (s.pc.toNat + 1) (min 2 (255 - s.pc.toNat))).map s.readMem).length =
      min 2 (255 - s.pc.toNat) := by rw [List.length_map, List.length_range']
  rw [step_running hr, State.fetchBytes_head hpc, decode, if_neg hcount, if_neg (by omega),
    select_congr (opa' := s.readMem (s.pc.toNat + 1)) (opb' := s.readMem (s.pc.toNat + 2))]
  · cases select s.cfg.hasDiv (s.readMem s.pc.toNat) (s.readMem (s.pc.toNat + 1)) (s.readMem (s.pc.toNat + 2)) <;> rfl
  · have htwo : [s.readMem (s.pc.toNat + 1), s.readMem (s.pc.toNat + 2)] =
      (List.range' (s.pc.toNat + 1) 2).map s.readMem := rfl
    rw [take_getD_getD hle (by omega), htwo, ← List.map_take, ← List.map_take, 
      List.take_range'_of_length_ge (by omega), List.take_range'_of_length_ge hle]

/-- A count of 3 faults before the operand bytes are looked at (60_exceptions.md R206). -/
theorem step_of_count_three {s : State} (hr : s.run = .running) (hpc : s.pc.toNat ≤ 255)
    (hcount : operandCount (s.readMem s.pc.toNat) = 3) : step s = takeFault .unsupportedOperation s :=
  step_of_decode_error hr (e := .operandCount3) (by rw [State.fetchBytes_head hpc, decode, if_pos hcount])

/-- An operand byte past the end of memory faults (43_execution_loop.md R182). -/
theorem step_of_truncated {s : State} (hr : s.run = .running) (hpc : s.pc.toNat ≤ 255)
    (hcount : operandCount (s.readMem s.pc.toNat) ≠ 3)
    (hpast : 255 < s.pc.toNat + operandCount (s.readMem s.pc.toNat)) : step s = takeFault .invalidOperand s := by
  have hle := operandCount_le (s.readMem s.pc.toNat)
  refine step_of_decode_error hr (e := .truncated) ?_
  rw [State.fetchBytes_head hpc, decode, if_neg hcount, if_pos]
  rw [List.length_map, List.length_range']
  omega

/-- A fetch past the end of memory faults (43_execution_loop.md R181). -/
theorem step_of_pc_past {s : State} (hr : s.run = .running) (hpc : 255 < s.pc.toNat) :
    step s = takeFault .invalidOperand s :=
  step_of_decode_error hr (e := .noByte) (by rw [State.fetchBytes_past hpc]; rfl)

theorem operandCount_eq_div (ir : Byte) : operandCount ir = ir.toNat / 64 := opcodeFields_operandCount ir

/-- Settles O15: the three checks are the lemmas above, in the loop's order; the loop's last line lists the rows of the
dispatch. -/
theorem stepIsTheExecutionLoop : Obligations.StepIsTheExecutionLoop := by
  intro s hr
  by_cases hpc : 255 < s.pc.toNat
  · exact (step_of_pc_past hr hpc).trans (if_pos hpc).symm
  rw [if_neg hpc, ← operandCount_eq_div]
  rw [not_lt] at hpc
  by_cases hcount : operandCount (s.readMem s.pc.toNat) = 3
  · exact (step_of_count_three hr hpc hcount).trans (if_pos hcount).symm
  rw [if_neg hcount]
  by_cases hpast : 255 < s.pc.toNat + operandCount (s.readMem s.pc.toNat)
  · exact (step_of_truncated hr hpc hcount hpast).trans (if_pos hpast).symm
  rw [if_neg hpast, step_of_fits hr hpc hcount (Nat.le_of_not_lt hpast)]
  generalize s.readMem s.pc.toNat = ir
  -- One goal for each row of the dispatch; in the last the byte is in no row, and so in no row of the loop either.
  unfold select
  split
  case h_4 => cases s.cfg.hasDiv <;> rfl
  case h_22 =>
    split
    case h_22 => rfl
    all_goals next hn => exact absurd (BitVec.toNat_eq_nat.mp hn).2 ‹_›
  all_goals rfl

end Sys2Proof.Machine

/-! # The opcode map: its bytes are instructions, the others fault (30_encoding.md section 4) -/

namespace Sys2Proof.Machine

/-- Every byte of the map decodes, with enough bytes after it, to the instruction whose opcode byte it is. -/
theorem decode_of_mem_opcodeRows {hasDiv : Bool} {ir : Byte} (h : ir ∈ opcodeRows hasDiv) (opa opb : Byte) :
    ∃ i rest, decode hasDiv [ir, opa, opb] = .ok (i, rest) ∧ i.opcode = ir := by
  match hsel : select hasDiv ir opa opb with
  | none => exact absurd h (select_eq_none_iff.mp hsel)
  | some i =>
    obtain ⟨hops, hdiv⟩ := select_some hsel
    have hop := opcode_of_select hsel
    refine ⟨i, [opa, opb].drop (operandCount ir), decode_ok_iff.mpr ⟨?_, hdiv⟩, hop⟩
    rw [encode, hop, hops, List.cons_append, List.take_append_drop]

/-- The byte values in a list without repetitions are as many as its length. -/
theorem length_bytes_mem {rows : List Byte} (nodup : rows.Nodup) (hle : rows.length ≤ 256) :
    ((List.range 256).filter fun n => decide (BitVec.ofNat 8 n ∈ rows)).length = rows.length := by
  have hlen := List.length_eq_length_filter_add (l := List.range 256) fun n => decide (BitVec.ofNat 8 n ∈ rows)
  simp only [← decide_not, length_bytes_not_mem nodup, List.length_range] at hlen
  omega

/-- Settles O14: by the checks of the loop in their order, the last of which finds the byte in no row. -/
theorem unknownOpcodeBytesFault : Obligations.UnknownOpcodeBytesFault := by
  refine ⟨fun s hr hpc hmem => ?_, fun _ _ opa opb h => decode_of_mem_opcodeRows h opa opb,
    length_bytes_mem (opcodeRows_nodup false) (by decide), length_bytes_mem (opcodeRows_nodup true) (by decide)⟩
  rw [← operandCount_eq_div]
  refine ⟨fun hcase => ?_, step_of_truncated hr hpc⟩
  by_cases hcount : operandCount (s.readMem s.pc.toNat) = 3
  · exact step_of_count_three hr hpc hcount
  · rw [step_of_fits hr hpc hcount (hcase.resolve_left hcount), select_eq_none_iff.mpr hmem]
    rfl

end Sys2Proof.Machine

/-! # Faults and control transfers (60_exceptions.md sections 1 and 2, 42_control.md section 3) -/

namespace Sys2Proof.Machine

/-! ## What a fault leaves, and where a step leaves `pc` -/

/-- An instruction that leaves a running core faulted has changed the run state only. -/
theorem Effect.eq_setRun_of_faulted {i : Instr} {s t : State} {k : FaultKind} (e : Effect i s t) (hr : s.run = .running)
    (ht : t.run = .faulted k) : t = s.setRun (.faulted k) :=
  e.unique (.fault (e.faultCause hr ht))

/-- Settles O19: a fault of the fetch by its form, a fault of an instruction by `Effect.eq_setRun_of_faulted`. -/
theorem faultsChangeOnlyTheRunState : Obligations.FaultsChangeOnlyTheRunState := by
  refine ⟨fun s t k h ht => ?_, fun i s t k hr h ht => (exec_effect h).eq_setRun_of_faulted hr ht⟩
  obtain ⟨hr, ⟨-, k', rfl⟩ | ⟨i, -, e⟩⟩ := step_effect h
  · cases ht
    rfl
  · exact e.eq_setRun_of_faulted hr ht

/-- Settles O18: an instruction that completes moves `pc` past itself, or is one of the five and puts a byte there. -/
theorem controlTransfersOnlyByTheFiveJumps : Obligations.ControlTransfersOnlyByTheFiveJumps := by
  intro s t i h hc ok hne
  obtain ⟨-, ⟨hnone, -⟩ | ⟨j, hj, e⟩⟩ := step_effect h
  · simp [hc] at hnone
  obtain rfl : j = i := Option.some.inj (hj.symm.trans hc)
  obtain ⟨k, rfl⟩ | ht | ⟨own, v, ht⟩ := e.pc_cases
  · exact absurd rfl (ok k)
  · exact absurd (by rw [ht, State.advance_pc_of_current hc]) hne
  · rw [ht, zext9_toNat]
    exact ⟨own, Nat.le_of_lt_succ v.isLt⟩

/-! ## Why a step faults -/

/-- A step raises a fault exactly where the fetch does or the dispatched instruction has a cause. -/
theorem step_faulted_iff {s t : State} (h : step s = .next t) (k : FaultKind) :
    t.run = .faulted k ↔
      (∃ e, decode s.cfg.hasDiv s.fetchBytes = .error e ∧ decodeFault e = k) ∨
        ∃ i, s.current = some i ∧ FaultCause i s k := by
  obtain ⟨hr, ⟨e, hd, rfl⟩ | ⟨i, rest, hd, hx⟩⟩ := step_next h
  · simp [hd, State.current_of_decode_error hd]
  · have hiff : t.run = .faulted k ↔ FaultCause i s k :=
      ⟨(exec_effect hx).faultCause hr, fun c => (exec_effect hx).unique (.fault c) ▸ rfl⟩
    simp [hd, State.current_of_decode_ok hd, hiff]

/-- The fetch raises `InvalidOperand` at its two bound checks. -/
theorem State.decode_invalid_iff (s : State) :
    (∃ e, decode s.cfg.hasDiv s.fetchBytes = .error e ∧ decodeFault e = .invalidOperand) ↔
      255 < s.pc.toNat ∨ s.pc.toNat ≤ 255 ∧ (s.readMem s.pc.toNat).toNat / 64 ≠ 3 ∧
        255 < s.pc.toNat + (s.readMem s.pc.toNat).toNat / 64 := by
  rw [← operandCount_eq_div]
  by_cases hpc : 255 < s.pc.toNat
  · simp [State.fetchBytes_past hpc, decode, decodeFault, hpc]
  rw [not_lt] at hpc
  have hle := operandCount_le (s.readMem s.pc.toNat)
  have hshort : (((List.range' (s.pc.toNat + 1) (min 2 (255 - s.pc.toNat))).map s.readMem).length <
      operandCount (s.readMem s.pc.toNat)) ↔
      operandCount (s.readMem s.pc.toNat) = 3 ∨ 255 < s.pc.toNat + operandCount (s.readMem s.pc.toNat) := by
    rw [List.length_map, List.length_range']
    omega
  rw [State.fetchBytes_head hpc, decode]
  simp only [hshort]
  split_ifs with hcount hpast
  · simp [hcount, hpc.not_gt, decodeFault]
  · simp [hcount, hpc, hpast.resolve_left hcount, decodeFault]
  · split <;> simp_all [decodeFault]

/-- `decodeFault` has two values. -/
theorem decodeFault_cases (e : DecodeError) : decodeFault e = .unsupportedOperation ∨ decodeFault e = .invalidOperand := by
  cases e <;> simp [decodeFault]

/-- The faults that no fetch raises are those of the dispatched instruction. -/
theorem step_operation_faulted_iff {s t : State} (h : step s = .next t) {k : FaultKind}
    (hu : k ≠ .unsupportedOperation) (hi : k ≠ .invalidOperand) :
    t.run = .faulted k ↔ ∃ i, s.current = some i ∧ FaultCause i s k := by
  refine (step_faulted_iff h k).trans (or_iff_right ?_)
  rintro ⟨e, -, rfl⟩
  exact (decodeFault_cases e).elim hu hi

theorem faultCause_invalidOperand_iff {i : Instr} {s : State} :
    FaultCause i s .invalidOperand ↔
      (∃ b ∈ i.regOperands, 7 < b.toNat) ∨ ∃ a, i = .call a ∧ 255 < s.pc.toNat + 2 := by
  constructor
  · intro c
    cases c with
    | register b mem bad => exact .inl ⟨b, mem, bad⟩
    | returnAddress a r ha high => exact .inr ⟨a, rfl, high⟩
  · rintro (⟨b, mem, bad⟩ | ⟨a, rfl, high⟩)
    · exact .register b mem bad
    · by_cases bad : 7 < a.toNat
      · exact .register a (List.mem_singleton.mpr rfl) bad
      · exact .returnAddress a ⟨a.toNat, by omega⟩ rfl high

theorem faultCause_divisionByZero_iff {i : Instr} {s : State} :
    FaultCause i s .divisionByZero ↔
      ∃ (a b : Byte) (r q : Fin 8), i = .div a b ∧ a.toNat = r.val ∧ b.toNat = q.val ∧ s.reg q = 0 := by
  constructor
  · intro c
    cases c with
    | divisor a b r q ha hb zero => exact ⟨a, b, r, q, rfl, ha, hb, zero⟩
  · rintro ⟨a, b, r, q, rfl, ha, hb, zero⟩
    exact .divisor a b r q ha hb zero

theorem faultCause_stackUnderflow_iff {i : Instr} {s : State} :
    FaultCause i s .stackUnderflow ↔
      s.sp = 0 ∧ ∃ a : Byte, a.toNat ≤ 7 ∧ (i = .push a ∨ i = .call a ∧ s.pc.toNat + 2 ≤ 255) := by
  constructor
  · intro c
    cases c with
    | push a r ha zero => exact ⟨zero, a, by omega, .inl rfl⟩
    | call a r ha low zero => exact ⟨zero, a, by omega, .inr ⟨rfl, low⟩⟩
  · rintro ⟨zero, a, hle, rfl | ⟨rfl, low⟩⟩
    · exact .push a ⟨a.toNat, by omega⟩ rfl zero
    · exact .call a ⟨a.toNat, by omega⟩ rfl low zero

theorem faultCause_stackOverflow_iff {i : Instr} {s : State} :
    FaultCause i s .stackOverflow ↔ s.sp = 255 ∧ (i = .ret ∨ ∃ a : Byte, a.toNat ≤ 7 ∧ i = .pop a) := by
  constructor
  · intro c
    cases c with
    | pop a r ha top => exact ⟨top, .inr ⟨a, by omega, rfl⟩⟩
    | ret top => exact ⟨top, .inl rfl⟩
  · rintro ⟨top, rfl | ⟨a, hle, rfl⟩⟩
    · exact .ret top
    · exact .pop a ⟨a.toNat, by omega⟩ rfl top

/-- A dispatched CALL has its operand byte inside memory, so its return address is above 255 at 254 alone. -/
theorem State.pc_le_of_current_call {s : State} {a : Byte} (h : s.current = some (.call a)) : s.pc.toNat ≤ 254 :=
  Nat.le_of_add_le_add_right (b := 2) (State.pc_add_length_le h)

/-- Settles O21: the fetch raises it in the first two cases, an instruction in the others. -/
theorem invalidOperandIsRaisedInExactlyFourCases : Obligations.InvalidOperandIsRaisedInExactlyFourCases := by
  intro s t h
  have hcall (a : Byte) (hc : s.current = some (.call a)) : 255 < s.pc.toNat + 2 ↔ s.pc.toNat = 254 := by
    have := State.pc_le_of_current_call hc
    omega
  rw [step_faulted_iff h, State.decode_invalid_iff, or_assoc]
  refine or_congr_right (or_congr_right ?_)
  simp only [faultCause_invalidOperand_iff, and_or_left, exists_or]
  refine or_congr_right ⟨?_, ?_⟩
  · rintro ⟨_, hc, a, rfl, high⟩
    exact ⟨a, hc, (hcall a hc).mp high⟩
  · rintro ⟨a, hc, hpc⟩
    exact ⟨_, hc, a, rfl, (hcall a hc).mpr hpc⟩

section OperationFaults

variable {s t : State} (h : step s = .next t)
include h

theorem step_divisionByZero_iff : t.run = .faulted .divisionByZero ↔
    ∃ (a b : Byte) (i j : Fin 8), s.current = some (.div a b) ∧ a.toNat = i.val ∧ b.toNat = j.val ∧ s.reg j = 0 := by
  refine (step_operation_faulted_iff h (k := .divisionByZero) nofun nofun).trans ⟨?_, ?_⟩
  · rintro ⟨i, hc, cause⟩
    obtain ⟨a, b, r, q, rfl, due⟩ := faultCause_divisionByZero_iff.mp cause
    exact ⟨a, b, r, q, hc, due⟩
  · rintro ⟨a, b, r, q, hc, due⟩
    exact ⟨_, hc, faultCause_divisionByZero_iff.mpr ⟨a, b, r, q, rfl, due⟩⟩

theorem step_stackUnderflow_iff : t.run = .faulted .stackUnderflow ↔
    s.sp = 0 ∧ ∃ a : Byte, a.toNat ≤ 7 ∧
      (s.current = some (.push a) ∨ s.current = some (.call a) ∧ s.pc.toNat ≠ 254) := by
  refine (step_operation_faulted_iff h (k := .stackUnderflow) nofun nofun).trans ⟨?_, ?_⟩
  · rintro ⟨i, hc, cause⟩
    obtain ⟨zero, a, hle, rfl | ⟨rfl, low⟩⟩ := faultCause_stackUnderflow_iff.mp cause
    · exact ⟨zero, a, hle, .inl hc⟩
    · exact ⟨zero, a, hle, .inr ⟨hc, by omega⟩⟩
  · rintro ⟨zero, a, hle, hc | ⟨hc, hpc⟩⟩
    · exact ⟨_, hc, faultCause_stackUnderflow_iff.mpr ⟨zero, a, hle, .inl rfl⟩⟩
    · have := State.pc_le_of_current_call hc
      exact ⟨_, hc, faultCause_stackUnderflow_iff.mpr ⟨zero, a, hle, .inr ⟨rfl, by omega⟩⟩⟩

theorem step_stackOverflow_iff : t.run = .faulted .stackOverflow ↔
    s.sp = 255 ∧ (s.current = some .ret ∨ ∃ a : Byte, a.toNat ≤ 7 ∧ s.current = some (.pop a)) := by
  refine (step_operation_faulted_iff h (k := .stackOverflow) nofun nofun).trans ⟨?_, ?_⟩
  · rintro ⟨i, hc, cause⟩
    obtain ⟨top, rfl | ⟨a, hle, rfl⟩⟩ := faultCause_stackOverflow_iff.mp cause
    · exact ⟨top, .inl hc⟩
    · exact ⟨top, .inr ⟨a, hle, hc⟩⟩
  · rintro ⟨top, hc | ⟨a, hle, hc⟩⟩
    · exact ⟨_, hc, faultCause_stackOverflow_iff.mpr ⟨top, .inl rfl⟩⟩
    · exact ⟨_, hc, faultCause_stackOverflow_iff.mpr ⟨top, .inr ⟨a, hle, rfl⟩⟩⟩

end OperationFaults

/-- Settles O22: each kind by its own lemma; a core that dispatches to DIV has it. -/
theorem operationFaultsAreRaisedExactlyWhenDue : Obligations.OperationFaultsAreRaisedExactlyWhenDue := by
  refine fun s t h => ⟨step_divisionByZero_iff h, step_stackUnderflow_iff h, step_stackOverflow_iff h, fun hdiv ht => ?_⟩
  obtain ⟨a, b, -, -, hc, -⟩ := (step_divisionByZero_iff h).mp ht
  obtain ⟨-, hasDiv⟩ := State.current_eq_some_iff.mp hc
  exact Bool.false_ne_true (hdiv.symm.trans (hasDiv a b rfl))

end Sys2Proof.Machine

/-! # What no instruction does: the stack pointer, memory and the registers (10_state.md sections 2 and 4, 20_memory.md) -/

namespace Sys2Proof.Machine

/-! ## The stack pointer -/

/-- An instruction leaves `sp` alone, or it is one of the four and moves `sp` by one (41_stack.md R140). -/
theorem Effect.sp_cases {i : Instr} {s t : State} (e : Effect i s t) :
    t.sp = s.sp ∨ i.usesStack = true ∧ (t.sp.toNat + 1 = s.sp.toNat ∨ t.sp.toNat = s.sp.toNat + 1) := by
  have down (nonzero : s.sp ≠ 0) : (s.sp - 1).toNat + 1 = s.sp.toNat := by
    have hne : s.sp.toNat ≠ 0 := fun h => nonzero (BitVec.eq_of_toNat_eq h)
    rw [sp_sub_one_toNat hne, Nat.sub_one_add_one hne]
  have up (below : s.sp ≠ 255) : (s.sp + 1).toNat = s.sp.toNat + 1 :=
    sp_add_one_toNat fun h => below (BitVec.eq_of_toNat_eq h)
  cases e with
  | push a r ha nonzero => exact .inr ⟨rfl, .inl (down nonzero)⟩
  | call a r ha low nonzero => exact .inr ⟨rfl, .inl (down nonzero)⟩
  | pop a r ha below => exact .inr ⟨rfl, .inr (up below)⟩
  | ret below => exact .inr ⟨rfl, .inr (up below)⟩
  | _ => exact .inl rfl

/-- The four stack instructions apart, whether an instruction faults does not depend on `sp`. -/
theorem FaultCause.setSp {i : Instr} {s : State} {k : FaultKind} (c : FaultCause i s k) (hi : i.usesStack = false)
    (v : Byte) : FaultCause i (s.setSp v) k := by
  cases c with
  | register b mem bad => exact .register b mem bad
  | divisor a b r q ha hb zero => exact .divisor a b r q ha hb zero
  | returnAddress | push | call | pop | ret => cases hi

/-- The four stack instructions apart, with another `sp` the effect is the same and leaves that `sp`. -/
theorem Effect.setSp {i : Instr} {s t : State} (e : Effect i s t) (hi : i.usesStack = false) (v : Byte) :
    Effect i (s.setSp v) (t.setSp v) := by
  cases e with
  | fault c => exact .fault (c.setSp hi v)
  | binary a b r q op ha hb => exact .binary a b r q op ha hb
  | div a b r q ha hb nonzero => exact .div a b r q ha hb nonzero
  | cmp a b r q ha hb => exact .cmp a b r q ha hb
  | not a r ha => exact .not a r ha
  | hlt => exact .hlt
  | ldi a imm r ha => exact .ldi a imm r ha
  | prn a r ha => exact .prn a r ha
  | jump a r ha taken => exact .jump a r ha taken
  | skip a r ha notTaken => exact .skip a r ha notTaken
  | push | pop | call | ret => cases hi

/-- Settles O27: the write side by `Effect.sp_cases`, the read side by `Effect.setSp`. -/
theorem stackPointerMovesOnlyByTheStackInstructions : Obligations.StackPointerMovesOnlyByTheStackInstructions :=
  ⟨fun _ _ _ h hne => (exec_effect h).sp_cases.resolve_left hne,
    fun _ _ t v hi h => ⟨t.setSp v, ((exec_effect h).setSp hi v).exec, rfl, unchanged_setSp t v⟩⟩

/-! ## Memory -/

/-- Settles O28: memory differs after a step only where `Effect.mem_cases` says that a byte was written. -/
theorem memoryIsStoredToOnlyByPushAndCall : Obligations.MemoryIsStoredToOnlyByPushAndCall := by
  intro s t c h hne
  obtain ⟨-, ⟨-, k, rfl⟩ | ⟨i, hc, e⟩⟩ := step_effect h
  · exact absurd rfl hne
  · obtain ht | ⟨nonzero, ⟨a, hi⟩, v, ht⟩ := e.mem_cases
    · exact absurd (congrArg (Memory.read · c) ht) hne
    · refine ⟨nonzero, by_contra fun hcell => hne ?_, a, ?_⟩
      · rw [State.readMem, ht, Memory.read_write, if_neg hcell, State.readMem]
      · exact hi.imp (fun hi => hc.trans (congrArg some hi)) fun hi => hc.trans (congrArg some hi)

/-- The fetch at an address sees the byte that stands there first. -/
theorem State.fetchBytes_head? {s : State} (h : s.pc.toNat ≤ 255) : s.fetchBytes.head? = some (s.readMem s.pc.toNat) := by
  rw [State.fetchBytes_head h, List.head?_cons]

/-- Settles O35: the next fetch reads the cell below the old `sp`, which the push has just written. -/
theorem storedByteIsFetchedNext : Obligations.StoredByteIsFetchedNext := by
  intro i s t a r ha nonzero hpc
  have hfetch : t.fetchBytes.head? = some (t.readMem (s.sp.toNat - 1)) :=
    hpc ▸ State.fetchBytes_head? (hpc ▸ Nat.le_of_lt_succ (pushAddress_lt s))
  refine ⟨?_, ?_⟩
  · rintro rfl h
    rw [hfetch, (exec_effect h).unique (.push a r ha nonzero), State.advance_readMem, State.setSp_readMem,
      State.readMem_writeMem_self]
  · rintro rfl hlow h
    rw [hfetch, (exec_effect h).unique (.call a r ha (Nat.add_le_add_right hlow 2) nonzero), State.setPc_readMem,
      State.setSp_readMem, State.readMem_writeMem_self]

/-! ## The registers -/

/-- An instruction leaves the registers alone, or it writes one that its row lists as written. -/
theorem Effect.x_cases {i : Instr} {s t : State} (e : Effect i s t) :
    t.x = s.x ∨ ∃ (a : Byte) (r : Fin 8) (v : Byte), a ∈ i.writesRegs ∧ a.toNat = r.val ∧ t.x = (s.setReg r v).x := by
  cases e with
  | binary a b r q op ha hb =>
    obtain ⟨-, -, hw⟩ := operands_of_mem_binaryOps op
    exact .inr ⟨a, r, _, by simp [hw], ha, rfl⟩
  | div a b r q ha hb nonzero => exact .inr ⟨a, r, _, List.mem_singleton.mpr rfl, ha, rfl⟩
  | not a r ha => exact .inr ⟨a, r, _, List.mem_singleton.mpr rfl, ha, rfl⟩
  | ldi a imm r ha => exact .inr ⟨a, r, _, List.mem_singleton.mpr rfl, ha, rfl⟩
  | pop a r ha below => exact .inr ⟨a, r, _, List.mem_singleton.mpr rfl, ha, rfl⟩
  | _ => exact .inl rfl

theorem State.reg_eq_of_x_eq {s t : State} (h : t.x = s.x) (r : Fin 8) : t.reg r = s.reg r := by
  rw [State.reg, State.reg, h]

/-- Of two writes to one register the second stays. -/
theorem State.setReg_setReg_self (s : State) (r : Fin 8) (v w : Byte) : (s.setReg r v).setReg r w = s.setReg r w := by
  simp [State.setReg]

/-- Writes to different registers commute. -/
theorem State.setReg_setReg_comm (s : State) {r q : Fin 8} (h : r ≠ q) (v w : Byte) :
    (s.setReg r v).setReg q w = (s.setReg q w).setReg r v := by
  have hval : r.val ≠ q.val := fun hv => h (Fin.ext hv)
  simp [State.setReg, Vector.set_comm _ _ hval]

/-- A write to `q` after the write to `r`: either it wrote over `r`, or the write to `r` can as well come last. -/
theorem Effect.setReg_of_write {i : Instr} {s u : State} {r q : Fin 8} (v : Byte) {a w : Byte} {n : Nat}
    (mem : a ∈ i.writesRegs) (ha : a.toNat = q.val) (e : Effect i (s.setReg r v) (((u.setReg r v).setReg q w).advance n)) :
    Effect i (s.setReg r v) (((u.setReg q w).advance n).setReg r v) ∨
      (∃ b ∈ i.writesRegs, b.toNat = r.val) ∧ Effect i (s.setReg r v) ((u.setReg q w).advance n) := by
  by_cases hrq : r = q
  · subst hrq
    rw [State.setReg_setReg_self] at e
    exact .inr ⟨⟨a, mem, ha⟩, e⟩
  · rw [State.setReg_setReg_comm u hrq] at e
    exact .inl e

section Unread

variable {i : Instr} {s t : State} {r : Fin 8} (unread : ∀ b ∈ i.readsRegs, b.toNat ≠ r.val) (v : Byte)
include unread

/-- The registers that an instruction reads are not the unread one. -/
theorem State.reg_setReg_of_unread {b : Byte} (mem : b ∈ i.readsRegs) {q : Fin 8} (hb : b.toNat = q.val) :
    (s.setReg r v).reg q = s.reg q :=
  State.reg_setReg_ne s (fun hrq : r = q => unread b mem (hrq ▸ hb)) v

/-- Whether an instruction faults does not depend on a register its row does not list as read. -/
theorem FaultCause.setReg {k : FaultKind} (c : FaultCause i s k) : FaultCause i (s.setReg r v) k := by
  cases c with
  | register b mem bad => exact .register b mem bad
  | returnAddress a q ha high => exact .returnAddress a q ha high
  | divisor a b p q ha hb zero =>
    exact .divisor a b p q ha hb ((State.reg_setReg_of_unread unread v (by simp [Instr.readsRegs]) hb).trans zero)
  | push a q ha zero => exact .push a q ha zero
  | call a q ha low zero => exact .call a q ha low zero
  | pop a q ha top => exact .pop a q ha top
  | ret top => exact .ret top

/-- With another value in a register its row does not list as read, an instruction does the same; that register keeps the
value, unless the instruction writes it. -/
theorem Effect.setReg (e : Effect i s t) :
    Effect i (s.setReg r v) (t.setReg r v) ∨
      (∃ b ∈ i.writesRegs, b.toNat = r.val) ∧ Effect i (s.setReg r v) t := by
  have read {b : Byte} {q : Fin 8} (mem : b ∈ i.readsRegs) (hb : b.toNat = q.val) :=
    State.reg_setReg_of_unread (s := s) unread v mem hb
  cases e with
  | fault c => exact .inl (.fault (c.setReg unread v))
  | binary a b p q op ha hb =>
    obtain ⟨-, hr, hw⟩ := operands_of_mem_binaryOps op
    have e := Effect.binary (s := s.setReg r v) a b p q op ha hb
    rw [read (by simp [hr]) ha, read (by simp [hr]) hb] at e
    exact setReg_of_write v (by simp [hw]) ha e
  | div a b p q ha hb nonzero =>
    have hp := read List.mem_cons_self ha
    have hq := read (List.mem_cons_of_mem _ List.mem_cons_self) hb
    have e := Effect.div (s := s.setReg r v) a b p q ha hb (hq ▸ nonzero)
    rw [hp, hq] at e
    exact setReg_of_write v List.mem_cons_self ha e
  | cmp a b p q ha hb =>
    have e := Effect.cmp (s := s.setReg r v) a b p q ha hb
    rw [read List.mem_cons_self ha, read (List.mem_cons_of_mem _ List.mem_cons_self) hb] at e
    exact .inl e
  | not a q ha =>
    have e := Effect.not (s := s.setReg r v) a q ha
    rw [read List.mem_cons_self ha] at e
    exact setReg_of_write v List.mem_cons_self ha e
  | hlt => exact .inl .hlt
  | ldi a imm q ha => exact setReg_of_write v List.mem_cons_self ha (.ldi a imm q ha)
  | push a q ha nonzero =>
    have e := Effect.push (s := s.setReg r v) a q ha nonzero
    rw [read List.mem_cons_self ha] at e
    exact .inl e
  | pop a q ha below =>
    exact setReg_of_write (u := s.setSp (s.sp + 1)) v List.mem_cons_self ha (.pop a q ha below)
  | prn a q ha =>
    have e := Effect.prn (s := s.setReg r v) a q ha
    rw [read List.mem_cons_self ha] at e
    exact .inl e
  | call a q ha low nonzero =>
    have e := Effect.call (s := s.setReg r v) a q ha low nonzero
    rw [read List.mem_cons_self ha] at e
    exact .inl e
  | ret below => exact .inl (.ret below)
  | jump a q ha taken =>
    have mem : a ∈ i.readsRegs := by obtain rfl | ⟨rfl, -⟩ | ⟨rfl, -⟩ := taken <;> exact List.mem_cons_self
    have e := Effect.jump (s := s.setReg r v) a q ha taken
    rw [read mem ha] at e
    exact .inl e
  | skip a q ha notTaken => exact .inl (.skip a q ha notTaken)

end Unread

/-- Settles O30: the write side by `Effect.x_cases`, the read side by `Effect.setReg`. -/
theorem registersAreTouchedOnlyAsNamed : Obligations.RegistersAreTouchedOnlyAsNamed := by
  refine ⟨fun i s t r h hne => ?_, fun i s t r v unread h => ?_⟩
  · obtain ht | ⟨a, q, v, mem, ha, ht⟩ := (exec_effect h).x_cases
    · exact absurd (State.reg_eq_of_x_eq ht r) hne
    · refine ⟨a, mem, ?_⟩
      by_contra hother
      have hqr : q ≠ r := fun hqr => hother (hqr ▸ ha)
      exact hne ((State.reg_eq_of_x_eq ht r).trans (State.reg_setReg_ne s hqr v))
  · obtain e | ⟨⟨b, mem, hb⟩, e⟩ := (exec_effect h).setReg unread v
    · exact ⟨_, e.exec, unchanged_setReg t r v, fun _ => State.reg_setReg_self t r v⟩
    · exact ⟨t, e.exec, Unchanged.refl t _, fun unwritten => absurd hb (unwritten b mem)⟩

end Sys2Proof.Machine

/-! # The contracts of SUB, DIV, SHL, SHR, POP, CALL, JEQ and HLT (40_alu.md, 41_stack.md, 42_control.md) -/

namespace Sys2Proof.Machine

/-! ## The ALU's results as numbers -/

/-- The difference modulo 256 (40_alu.md R112). -/
theorem sub_toNat_eq (u v : Byte) : (u - v).toNat = (u.toNat + 256 - v.toNat) % 256 := by
  have hlt := v.isLt
  rw [BitVec.toNat_sub]
  omega

/-- A left shift multiplies by the power of two, modulo 256 (40_alu.md R120). -/
theorem shl_toNat_eq (u v : Byte) : (u <<< v.toNat).toNat = u.toNat * 2 ^ v.toNat % 256 := by
  rw [BitVec.toNat_shiftLeft, Nat.shiftLeft_eq]

/-- A right shift divides by the power of two (40_alu.md R121). -/
theorem shr_toNat_eq (u v : Byte) : (u >>> v.toNat).toNat = u.toNat / 2 ^ v.toNat := by
  rw [BitVec.toNat_ushiftRight, Nat.shiftRight_eq_div_pow]

/-- Settles O37: the ALU shape at `-`. -/
theorem subWritesTheDifferenceModulo256 : Obligations.SubWritesTheDifferenceModulo256 := by
  refine fun a b s => ⟨fun _ => decode_encode_append (i := .sub a b) nofun,
    fun bad => exec_invalid_of_regOperands rfl bad s, fun i j ha hb => ?_⟩
  obtain ⟨t, ht, hreg, frame⟩ := exec_binary (i := .sub a b) (f := (· - ·)) (by simp [binaryOps]) ha hb s
  exact ⟨t, ht, hreg ▸ sub_toNat_eq _ _, frame⟩

/-- Settles O39: the effect of DIV where the divisor is not 0, its fault where it is. -/
theorem divWritesTheQuotientOrFaults : Obligations.DivWritesTheQuotientOrFaults := by
  refine fun a b s => ⟨decode_encode_append (i := .div a b) fun _ _ _ => rfl, decode_encode_div_append a b,
    fun bad => exec_invalid_of_regOperands rfl bad s, fun i j ha hb => ⟨fun zero => ?_, fun nonzero => ?_⟩⟩
  · exact (FaultCause.divisor a b i j ha hb (BitVec.eq_of_toNat_eq zero)).exec
  · refine ⟨_, (Effect.div a b i j ha hb (ne_of_apply_ne BitVec.toNat nonzero)).exec, ?_, rfl,
      unchanged_setReg_advance s i _ 2⟩
    rw [State.advance_reg, State.reg_setReg_self, BitVec.toNat_udiv]

/-- Settles O43: the ALU shape at `<<<`, which leaves no bit once the amount is the width. -/
theorem shlMultipliesByThePowerOfTwo : Obligations.ShlMultipliesByThePowerOfTwo := by
  refine fun a b s => ⟨fun _ => decode_encode_append (i := .shl a b) nofun,
    fun bad => exec_invalid_of_regOperands rfl bad s, fun i j ha hb => ?_⟩
  obtain ⟨t, ht, hreg, frame⟩ :=
    exec_binary (i := .shl a b) (f := fun u v => u <<< v.toNat) (by simp [binaryOps]) ha hb s
  exact ⟨t, ht, hreg ▸ shl_toNat_eq _ _, fun h8 => hreg.trans (BitVec.shiftLeft_eq_zero h8), frame⟩

/-- Settles O44: the ALU shape at `>>>`, which leaves no bit once the amount is the width. -/
theorem shrDividesByThePowerOfTwo : Obligations.ShrDividesByThePowerOfTwo := by
  refine fun a b s => ⟨fun _ => decode_encode_append (i := .shr a b) nofun,
    fun bad => exec_invalid_of_regOperands rfl bad s, fun i j ha hb => ?_⟩
  obtain ⟨t, ht, hreg, frame⟩ :=
    exec_binary (i := .shr a b) (f := fun u v => u >>> v.toNat) (by simp [binaryOps]) ha hb s
  exact ⟨t, ht, hreg ▸ shr_toNat_eq _ _, fun h8 => hreg.trans (BitVec.ushiftRight_eq_zero h8), frame⟩

/-! ## The stack -/

/-- POP below the top of memory completes: its register holds the byte at `sp`, `sp` is one more (41_stack.md R142). -/
theorem exec_pop {a : Byte} {i : Fin 8} {s : State} (ha : a.toNat = i.val) (below : s.sp.toNat ≠ 255) :
    exec (.pop a) s = .next (((s.setSp (s.sp + 1)).setReg i (s.readMem s.sp.toNat)).advance 1) :=
  (Effect.pop a i ha (ne_of_apply_ne BitVec.toNat below)).exec

/-- PUSH above address 0 completes: the byte at the new `sp` is its register, and a POP finds room (41_stack.md R141). -/
theorem exec_push {a : Byte} {i : Fin 8} {s : State} (ha : a.toNat = i.val) (pos : s.sp.toNat ≠ 0) :
    ∃ t, exec (.push a) s = .next t ∧ t.readMem t.sp.toNat = s.reg i ∧ t.sp = s.sp - 1 ∧ t.sp.toNat ≠ 255 := by
  have hsp := sp_sub_one_toNat pos
  have hlt := s.sp.isLt
  refine ⟨_, (Effect.push a i ha (ne_of_apply_ne BitVec.toNat pos)).exec, ?_, rfl, ?_⟩
  · rw [State.advance_sp, State.setSp_sp, hsp, State.advance_readMem, State.setSp_readMem, State.readMem_writeMem_self]
  · rw [State.advance_sp, State.setSp_sp, hsp]
    omega

/-- Settles O46: POP's own contract by `exec_pop`; after a PUSH it pops what `exec_push` says was pushed. -/
theorem popReadsAtTheStackPointer : Obligations.PopReadsAtTheStackPointer := by
  refine ⟨fun a s => ⟨fun _ => decode_encode_append (i := .pop a) nofun, fun bad => exec_invalid_of_regOperand rfl bad s,
    fun i ha => ⟨fun top => ?_, fun below => ?_⟩⟩, fun a b i j s ha hb pos => ?_⟩
  · exact (FaultCause.pop a i ha (BitVec.eq_of_toNat_eq top)).exec
  · refine ⟨_, exec_pop ha below, State.reg_setReg_self _ i _, sp_add_one_toNat below, rfl, ?_⟩
    exact ((unchanged_setSp s _).trans (unchanged_setReg_advance _ i _ 1)).mono (by simp)
  · obtain ⟨t, hpush, pushed, hsp, below⟩ := exec_push ha pos
    refine ⟨t, _, hpush, exec_pop hb below, (State.reg_setReg_self _ j _).trans pushed, ?_⟩
    rw [State.advance_sp, State.setReg_sp, State.setSp_sp, hsp, BitVec.sub_add_cancel]

/-- Settles O47: the three checks in their order, then the effect of CALL. -/
theorem callPushesTheReturnAddressAndJumps : Obligations.CallPushesTheReturnAddressAndJumps := by
  refine fun a s => ⟨fun _ => decode_encode_append (i := .call a) nofun, fun bad => exec_invalid_of_regOperand rfl bad s,
    fun i ha => ⟨fun high => ?_, fun low zero => ?_, fun low pos => ?_⟩⟩
  · exact (FaultCause.returnAddress a i ha high).exec
  · exact (FaultCause.call a i ha low (BitVec.eq_of_toNat_eq zero)).exec
  · refine ⟨_, (Effect.call a i ha low (ne_of_apply_ne BitVec.toNat pos)).exec, ?_, sp_sub_one_toNat pos, zext9_toNat _,
      (unchanged_push s _).trans (unchanged_setPc _ _)⟩
    rw [State.setPc_readMem, State.setSp_readMem, State.readMem_writeMem_self, BitVec.toNat_ofNat]
    omega

/-! ## The control unit -/

/-- Settles O53: with E set the effect of JEQ is a jump, with E clear it skips its operand. -/
theorem jeqJumpsWhenEqualIsSet : Obligations.JeqJumpsWhenEqualIsSet := by
  refine fun a s => ⟨fun _ => decode_encode_append (i := .jeq a) nofun,
    fun bad => exec_invalid_of_regOperand rfl bad s, fun i ha => ?_⟩
  cases he : s.fl.e with
  | true =>
    exact ⟨_, (Effect.jump a i ha (.inr (.inl ⟨rfl, he⟩))).exec, fun _ => zext9_toNat _, nofun, unchanged_setPc s _⟩
  | false => exact ⟨_, (Effect.skip a i ha (.inl ⟨rfl, he⟩)).exec, nofun, fun _ => rfl, unchanged_advance s 1⟩

/-- Settles O49: the effect of HLT sets the run state and moves `pc` past the one byte. -/
theorem hltEndsTheRun : Obligations.HltEndsTheRun :=
  ⟨fun _ => decode_encode_append (i := .hlt) nofun, fun s =>
    ⟨_, Effect.hlt.exec, rfl, rfl, (unchanged_setRun s _).trans (unchanged_advance _ 0)⟩⟩

end Sys2Proof.Machine
